-- ==== Sys2Proof/Word.lean ====
section
/-! DEFINITION. The widths the spec gives its values (rule R7: every value is an unsigned integer of the
width stated): bytes, 16-bit and 32-bit registers, window addresses and host bus words. -/

namespace Sys2Proof

/-- An 8-bit value: one byte of the window, of a frame, or a command byte. -/
abbrev Byte := BitVec 8

/-- A 16-bit value: the checksums, `DT_YEAR`, `A_PORT`. -/
abbrev Half := BitVec 16

/-- A 32-bit value: `F_EID`, `P_VAL`. -/
abbrev Word := BitVec 32

/-- A host window address (R42, R43): 10 bits, `0x000` to `0x3FF`. -/
abbrev Addr := BitVec 10

/-- A host bus word (R68): `W` at bit 18, `addr` at bits 17:8, `data` at bits 7:0. -/
abbrev BusWord := BitVec 19

end Sys2Proof
end

