-- ==== Sys2Proof/Syntax.lean ====
section
/-! DEFINITION. The block's instructions: its command bytes (R63-R66), one constructor per row of
spec/opcode_table.json. No command has an operand field (R64): the operands are registers. -/

namespace Sys2Proof

/-- A command of the block (R66). -/
inductive Instr where
  /-- R147 -/
  | nop
  /-- R88 -/
  | crcInit
  /-- R89 -/
  | crcFeed
  /-- R90 -/
  | crcCompute
  /-- R91 -/
  | crcAppend
  /-- R92 -/
  | crcVerify
  /-- R108 -/
  | payEncode
  /-- R109 -/
  | payDecode
  /-- R144 -/
  | pktKind
  /-- R131 -/
  | encError
  /-- R132 -/
  | encInfo
  /-- R134 -/
  | encQuery
  /-- R135 -/
  | encWrite
  /-- R136 -/
  | encEpinfo
  /-- R137 -/
  | encEpquery
  /-- R138 -/
  | decError
  /-- R139 -/
  | decInfo
  /-- R140 -/
  | decQuery
  /-- R141 -/
  | decWrite
  /-- R142 -/
  | decEpinfo
  /-- R143 -/
  | decEpquery
  /-- R146 -/
  | addrNorm
  deriving DecidableEq, Repr

end Sys2Proof
end

