-- ==== Sys2Proof/Config.lean ====
section
/-! DEFINITION. The block's parameters (R6), its fixed sizes and constants, and the one family of free
values: what a buffer byte holds after reset before anything has written it (R61, I9). -/

namespace Sys2Proof

/-- The parameters an implementation fixes (R6; I13, I14): they are plain data that a `State` carries
and no step changes, so every claim over states is a claim for every value of them. -/
structure Params where
  /-- `CRC_INIT_VALUE`. -/
  crcInit : Half
  /-- `HAS_ADDR_UNIT`. -/
  hasAddrUnit : Bool
  deriving DecidableEq, Repr

/-- The values the spec uses everywhere (R6): `CRC_INIT_VALUE = 0x0000`, `HAS_ADDR_UNIT = true`. -/
def Params.spec : Params where
  crcInit := 0x0000#16
  hasAddrUnit := true

namespace Config

/-- `FBUF_SIZE` (R6, R34). -/
def fbufSize : Nat := 152

/-- `P_DATA_SIZE` (R6, R33). -/
def pdataSize : Nat := 128

/-- `STRING_MAX` (R6): bytes of String128 content. -/
def stringMax : Nat := 127

/-- `CRC_POLY` (R6, R86), reflected. -/
def crcPoly : Half := 0x8408#16

/-- `DEFAULT_PORT` (R6, R146): 61616. -/
def defaultPort : Half := 0xF0B0#16

/-- FREE VALUE (R61, I9; log entry 1). The byte a buffer address holds from the `epoch`-th reset on,
until something writes it: drawn once per byte, stable until written, and no proof can see it. -/
opaque powerUpByte : (epoch addr : Nat) → Byte

end Config

end Sys2Proof
end

