-- ==== Sys2Proof/WellFormed.lean ====
section
/-! DEFINITION. What is well formed: a command present in this configuration (R67), and a host bus word
that stands for one of the two bus transactions (R42, R68). -/

namespace Sys2Proof

/-- R67: `ADDR_NORM` is a command only where the address unit is present; every other command of the
map always is. -/
def Instr.wellFormed (p : Params) : Instr → Bool
  | .addrNorm => p.hasAddrUnit
  | .nop | .crcInit | .crcFeed | .crcCompute | .crcAppend | .crcVerify | .payEncode | .payDecode
  | .pktKind | .encError | .encInfo | .encQuery | .encWrite | .encEpinfo | .encEpquery | .decError
  | .decInfo | .decQuery | .decWrite | .decEpinfo | .decEpquery => true

/-- R68: the `data` field is a write's value and is 0 for a read. R42: a model refuses any other form. -/
def BusWord.wellFormed (w : BusWord) : Bool :=
  w.getLsbD 18 || w.extractLsb' 0 8 == 0#8

end Sys2Proof
end

