-- ==== Sys2Proof/Decode.lean ====
section
/-! DEFINITION. Two encodings and their inverses: the command byte (R63-R67) and the 19-bit host bus word
(R68). Both decoders are total and refuse by `none`. -/

namespace Sys2Proof

/-- R66: the command map. Every other byte is illegal (R67). -/
def decode (b : Byte) : Option Instr :=
  match b.toNat with
  | 0x00 => some .nop
  | 0x01 => some .crcInit
  | 0x02 => some .crcFeed
  | 0x03 => some .crcCompute
  | 0x04 => some .crcAppend
  | 0x05 => some .crcVerify
  | 0x08 => some .payEncode
  | 0x09 => some .payDecode
  | 0x0F => some .pktKind
  | 0x10 => some .encError
  | 0x11 => some .encInfo
  | 0x12 => some .encQuery
  | 0x13 => some .encWrite
  | 0x14 => some .encEpinfo
  | 0x15 => some .encEpquery
  | 0x20 => some .decError
  | 0x21 => some .decInfo
  | 0x22 => some .decQuery
  | 0x23 => some .decWrite
  | 0x24 => some .decEpinfo
  | 0x25 => some .decEpquery
  | 0x30 => some .addrNorm
  | _ => none

/-- R66: the command byte of a command. -/
def encode : Instr → Byte
  | .nop => 0x00#8
  | .crcInit => 0x01#8
  | .crcFeed => 0x02#8
  | .crcCompute => 0x03#8
  | .crcAppend => 0x04#8
  | .crcVerify => 0x05#8
  | .payEncode => 0x08#8
  | .payDecode => 0x09#8
  | .pktKind => 0x0F#8
  | .encError => 0x10#8
  | .encInfo => 0x11#8
  | .encQuery => 0x12#8
  | .encWrite => 0x13#8
  | .encEpinfo => 0x14#8
  | .encEpquery => 0x15#8
  | .decError => 0x20#8
  | .decInfo => 0x21#8
  | .decQuery => 0x22#8
  | .decWrite => 0x23#8
  | .decEpinfo => 0x24#8
  | .decEpquery => 0x25#8
  | .addrNorm => 0x30#8

/-- A host bus transaction (R42): `MemRead(a, 1)` or `MemWrite(a, 1, v)`. -/
inductive BusOp where
  | read (a : Addr)
  | write (a : Addr) (v : Byte)
  deriving DecidableEq, Repr

/-- R68: the transaction a bus word stands for; `none` for a word of another form (R42), that is a
read whose `data` field is not 0 (log entry 4). -/
def decodeBus (w : BusWord) : Option BusOp :=
  if BusWord.wellFormed w then
    if w.getLsbD 18 then some (.write (w.extractLsb' 8 10) (w.extractLsb' 0 8))
    else some (.read (w.extractLsb' 8 10))
  else none

/-- R68: the bus word of a transaction. -/
def encodeBus : BusOp → BusWord
  | .read a => 0#1 ++ a ++ 0#8
  | .write a v => 1#1 ++ a ++ v

/-- The command the decoder reads from an opcode-table row's bits: a command is one byte (R65), so bits
7:0 of `w`, of which the row gives the low `nbits`. -/
def decodeTableWord (nbits w : Nat) : Option Instr :=
  decode (BitVec.ofNat 8 (w % 2 ^ nbits))

end Sys2Proof
end

