-- ==== Sys2Proof/Machine/State.lean ====
section
/-! DEFINITION. The machine's state as plain data: every register of R15, the two buffers, the host side
of the bus, the parameters, and the reset state (R40). -/

namespace Sys2Proof.Machine

/-- Bytes by window address, of the two buffers `P_DATA` and `FBUF`: exactly the bytes something has
written since reset, at strictly rising addresses (`Memory.wf` in Machine/Ops.lean). -/
abbrev Memory := List Host.Cell

/-- What reaches the block from outside, in the host's program order (R41, R54, R165). -/
inductive HostEvent where
  /-- One bus transaction, as the 19-bit word of R68. -/
  | word (w : BusWord)
  /-- The reset event of R165 (power-on or external input). -/
  | reset
  deriving DecidableEq, Repr

/-- The state. The registers are those of R15, in its order; `mem` holds the bytes of `P_DATA` and
`FBUF`; `params` are the parameters of R6; `pending`, `returned` and `epoch` are the model's own. -/
structure State where
  /-- `CMD`, R16. -/
  cmd : Byte
  /-- `STATUS`, R17. -/
  status : Byte
  /-- `ENGSTAT`, R18: bit 0 is `BUSY`, bits 7:1 are reserved. -/
  engstat : Byte
  /-- `FLEN`, R19. -/
  flen : Byte
  /-- `CRC`, R20. -/
  crc : Half
  /-- `CRC_CALC`, R21. -/
  crcCalc : Half
  /-- `CRC_RECV`, R22. -/
  crcRecv : Half
  /-- `CRC_IN`, R23. -/
  crcIn : Byte
  /-- `F_KIND`, R24. -/
  fKind : Byte
  /-- `F_FLAGS`, R25. -/
  fFlags : Byte
  /-- `F_DTYPE`, R26. -/
  fDtype : Byte
  /-- `F_ERRCODE`, R27. -/
  fErrcode : Byte
  /-- `F_EID`, R28. -/
  fEid : Word
  /-- `P_TYPE`, R29. -/
  pType : Byte
  /-- `P_LEN`, R30. -/
  pLen : Byte
  /-- `P_VAL`, R31. -/
  pVal : Word
  /-- `DT_HOUR`, R32. -/
  dtHour : Byte
  /-- `DT_MINUTE`, R32. -/
  dtMinute : Byte
  /-- `DT_SECOND`, R32. -/
  dtSecond : Byte
  /-- `DT_DAY`, R32. -/
  dtDay : Byte
  /-- `DT_MONTH`, R32. -/
  dtMonth : Byte
  /-- `DT_DOW`, R32. -/
  dtDow : Byte
  /-- `DT_YEAR`, R32. -/
  dtYear : Half
  /-- `A_CTRL`, R35: bit 0 is `PORT_VALID`, bits 7:1 are reserved. -/
  aCtrl : Byte
  /-- `A_PORT`, R36. -/
  aPort : Half
  /-- The written bytes of `P_DATA` (R33) and `FBUF` (R34), by window address. -/
  mem : Memory
  /-- The parameters of R6; no step changes them. -/
  params : Params
  /-- MODEL'S OWN: what the host and the reset input still have to deliver, oldest first. -/
  pending : List HostEvent
  /-- MODEL'S OWN: the bytes the host's reads have returned so far, newest first. -/
  returned : List Byte
  /-- MODEL'S OWN: how many reset events have happened; picks the free bytes of R61. -/
  epoch : Nat
  deriving DecidableEq, Repr

/-- No step of this machine faults: the block raises no trap (R9, R154), so the type is empty. What a
command cannot do it reports in `STATUS` and goes on. -/
inductive Fault : Type where
  deriving DecidableEq, Repr

/-- Why a step has no meaning. All of these stop where hardware might go on: safe. -/
inductive Refusal where
  /-- Raised by an arm of `exec` whose instruction has no meaning yet (none in this model). Safe. -/
  | notModelled (mnemonic : String)
  /-- Raised by `busStep` for a host access to an address other than `ENGSTAT` while `BUSY = 1`
  (R168, I12): it has no meaning in the spec and a model refuses it. Safe. -/
  | hostProtocolViolation
  /-- Raised by `busStep` for a bus word that is neither of the two transactions of R42. Safe. -/
  | malformedBusWord
  deriving DecidableEq, Repr

/-- R40: the state after reset for given parameters, with nothing pending. The buffers are unspecified:
nothing is listed in `mem`. -/
def State.resetWith (p : Params) : State where
  cmd := 0x00#8
  status := 0x00#8
  engstat := 0x00#8
  flen := 0x00#8
  crc := p.crcInit
  crcCalc := 0x0000#16
  crcRecv := 0x0000#16
  crcIn := 0x00#8
  fKind := 0x00#8
  fFlags := 0x00#8
  fDtype := 0x00#8
  fErrcode := 0x00#8
  fEid := 0x00000000#32
  pType := 0x00#8
  pLen := 0x00#8
  pVal := 0x00000000#32
  dtHour := 0x00#8
  dtMinute := 0x00#8
  dtSecond := 0x00#8
  dtDay := 0x00#8
  dtMonth := 0x00#8
  dtDow := 0x00#8
  dtYear := 0x0000#16
  aCtrl := 0x00#8
  aPort := 0x0000#16
  mem := []
  params := p
  pending := []
  returned := []
  epoch := 0

/-- R40 with the parameter values the spec uses (R6). -/
def State.reset : State := State.resetWith Params.spec

end Sys2Proof.Machine
end

