-- ==== Sys2Proof/Machine/Flags.lean ====
section
/-! DEFINITION. The outcome of a command. The block has no flags beyond `STATUS` and `ENGSTAT.BUSY`
(R37); this file holds the status codes (R150), the codes each command may report (R151) and the two
status bits. -/

namespace Sys2Proof.Machine

/-- The status codes by name (R150). -/
inductive Status where
  | ok
  | malformedHeader
  | checksumMismatch
  | unknownPacketType
  | unknownDataType
  | invalidBoolEncoding
  | stringTooLong
  | stringNotTerminated
  | byteLengthInvalid
  | unsupportedPayloadType
  | frameTooShort
  | frameLengthInvalid
  | wrongPacketType
  | bufferOverflow
  | illegalCommand
  deriving DecidableEq, Repr

/-- R150: the code `STATUS` holds. -/
def Status.code : Status → Byte
  | .ok => 0x00#8
  | .malformedHeader => 0x01#8
  | .checksumMismatch => 0x02#8
  | .unknownPacketType => 0x03#8
  | .unknownDataType => 0x04#8
  | .invalidBoolEncoding => 0x05#8
  | .stringTooLong => 0x06#8
  | .stringNotTerminated => 0x07#8
  | .byteLengthInvalid => 0x08#8
  | .unsupportedPayloadType => 0x09#8
  | .frameTooShort => 0x10#8
  | .frameLengthInvalid => 0x11#8
  | .wrongPacketType => 0x12#8
  | .bufferOverflow => 0x13#8
  | .illegalCommand => 0x1F#8

/-- `ENGSTAT.BUSY` (R18). -/
def State.busy (s : State) : Bool := s.engstat.getLsbD 0

/-- `A_CTRL.PORT_VALID` (R35). -/
def State.portValid (s : State) : Bool := s.aCtrl.getLsbD 0

end Sys2Proof.Machine
end

