-- ==== Sys2Proof/Machine/Ops.lean ====
section
/-! DEFINITION. The shared operations: byte order (R8, R46), the buffer memory and its canonical form,
buffer access (R51), the ways a command ends (R9, R154) and the reset event (R165). -/

namespace Sys2Proof.Machine

/-- `be16` (R8). -/
def be16 (v : Half) : List Byte := [v.extractLsb' 8 8, v.extractLsb' 0 8]

/-- `be32` (R8). -/
def be32 (v : Word) : List Byte :=
  [v.extractLsb' 24 8, v.extractLsb' 16 8, v.extractLsb' 8 8, v.extractLsb' 0 8]

/-- `BE16` of two bytes (R8). -/
def ofBe16 (b0 b1 : Byte) : Half := b0 ++ b1

/-- `BE32` of four bytes (R8). -/
def ofBe32 (b0 b1 b2 b3 : Byte) : Word := b0 ++ b1 ++ b2 ++ b3

/-- The window address of `P_DATA[0]` (R44). -/
def pdataBase : Nat := 0x080

/-- The window address of `FBUF[0]` (R44). -/
def fbufBase : Nat := 0x100

/-- The written byte at an address; `none` where nothing has written since reset. -/
def Memory.byte? : Memory → Nat → Option Byte
  | [], _ => none
  | (b, w) :: m, a => if a = b then some w else Memory.byte? m a

/-- Write one byte, keeping the addresses strictly rising. -/
def Memory.store : Memory → Nat → Byte → Memory
  | [], a, v => [(a, v)]
  | (b, w) :: m, a, v =>
    if a < b then (a, v) :: (b, w) :: m
    else if a = b then (a, v) :: m
    else (b, w) :: Memory.store m a v

/-- Write bytes at consecutive addresses from `a` on. -/
def Memory.storeRun (m : Memory) (a : Nat) : List Byte → Memory
  | [] => m
  | v :: vs => Memory.storeRun (Memory.store m a v) (a + 1) vs

/-- Canonical form: strictly rising addresses, all of them buffer bytes (R44: `0x080`-`0x197`). An
unlisted byte reads as no written value, so no entry equals what an unlisted address reads as. -/
abbrev Memory.wf (m : Memory) : Prop :=
  m.Pairwise (fun x y => x.1 < y.1) ∧
    ∀ c ∈ m, pdataBase ≤ c.1 ∧ c.1 < fbufBase + Config.fbufSize

/-- The byte a buffer address holds: the written byte, or the free byte of R61. -/
def State.byteAt (s : State) (a : Nat) : Byte :=
  (Memory.byte? s.mem a).getD (Config.powerUpByte s.epoch a)

/-- `FBUF[i]`. -/
def State.fbuf (s : State) (i : Nat) : Byte := s.byteAt (fbufBase + i)

/-- `P_DATA[i]`. -/
def State.pdata (s : State) (i : Nat) : Byte := s.byteAt (pdataBase + i)

/-- `FBUF[i .. i+n-1]`. -/
def State.fbufBytes (s : State) (i n : Nat) : List Byte := (List.range n).map fun k => s.fbuf (i + k)

/-- `P_DATA[0 .. n-1]`. -/
def State.pdataBytes (s : State) (n : Nat) : List Byte := (List.range n).map s.pdata

/-- `FBUF[i ..] <- bs`. -/
def State.writeFbuf (s : State) (i : Nat) (bs : List Byte) : State :=
  { s with mem := Memory.storeRun s.mem (fbufBase + i) bs }

/-- `P_DATA[i ..] <- bs`. -/
def State.writePdata (s : State) (i : Nat) (bs : List Byte) : State :=
  { s with mem := Memory.storeRun s.mem (pdataBase + i) bs }

/-- `fail(code)` (R9, R154): the block's counterpart of taking an exception. `STATUS` takes the code and
nothing else changes; no pc, mode or vector exists, and nothing is saved, so there is no return (R155). -/
def State.fail (s : State) (c : Status) : State := { s with status := c.code }

/-- The end of a `commit` block (R9): `STATUS <- OK`. -/
def State.commit (s : State) : State := { s with status := Status.ok.code }

/-- `capture(calc, recv)` (R9): written at once; it survives a later `fail`. -/
def State.capture (s : State) (computed received : Half) : State :=
  { s with crcCalc := computed, crcRecv := received }

/-- The reset event (R165, R166): every register takes its value of R40 and the buffers become
unspecified afresh (the next epoch's free bytes); what the host has still to deliver and what its reads
have returned are the host's, and stay. -/
def State.resetEvent (s : State) : State :=
  { State.resetWith s.params with
    pending := s.pending, returned := s.returned, epoch := s.epoch + 1 }

end Sys2Proof.Machine
end

