-- ==== Sys2Proof/Machine/Address.lean ====
section
/-! DEFINITION. The address/port normaliser (spec file 43, R146). -/

namespace Sys2Proof.Machine

/-- R146: without the unit the command is illegal; with it, a port that was not supplied becomes 61616. -/
def execAddrNorm (s : State) : Host.Outcome State Fault Refusal :=
  .next <|
    if s.params.hasAddrUnit = false then s.fail .illegalCommand
    else if s.portValid = false then
      { s with aPort := Config.defaultPort, aCtrl := s.aCtrl ||| 0x01#8 }.commit
    else s.commit

end Sys2Proof.Machine
end

