-- ==== Sys2Proof/Machine/Checksum.lean ====
section
/-! DEFINITION. The Checksum Engine (spec file 40): the algorithm (R86, R87) and the five checksum
commands (R88-R92). -/

namespace Sys2Proof.Machine

/-- One shift step of R86. -/
def crcShift (c : Half) : Half :=
  if c.getLsbD 0 then (c >>> 1) ^^^ Config.crcPoly else c >>> 1

/-- `n` shift steps. -/
def crcShifts : Nat → Half → Half
  | 0, c => c
  | n + 1, c => crcShifts n (crcShift c)

/-- `crc_byte(c, b)` (R86). -/
def crcByte (c : Half) (b : Byte) : Half := crcShifts 8 (c ^^^ b.setWidth 16)

/-- `checksum(bs)` (R87), from `CRC_INIT_VALUE = init`. -/
def checksum (init : Half) (bs : List Byte) : Half := bs.foldl crcByte init

/-- `checksum(FBUF[0 .. n-1])`. -/
def State.checksumTo (s : State) (n : Nat) : Half := checksum s.params.crcInit (s.fbufBytes 0 n)

/-- The received trailer `BE16(FBUF[n-2 .. n-1])` of a frame of `n` bytes (R87, R129). -/
def State.trailer (s : State) (n : Nat) : Half := ofBe16 (s.fbuf (n - 2)) (s.fbuf (n - 1))

/-- R88: `CRC <- CRC_INIT_VALUE`. -/
def execCrcInit (s : State) : Host.Outcome State Fault Refusal :=
  .next { s with crc := s.params.crcInit }.commit

/-- R89: `CRC <- crc_byte(CRC, CRC_IN)`. -/
def execCrcFeed (s : State) : Host.Outcome State Fault Refusal :=
  .next { s with crc := crcByte s.crc s.crcIn }.commit

/-- R90: `CRC_CALC <- checksum(frame)`. -/
def execCrcCompute (s : State) : Host.Outcome State Fault Refusal :=
  .next <|
    if Config.fbufSize < s.flen.toNat then s.fail .frameLengthInvalid
    else { s with crcCalc := s.checksumTo s.flen.toNat }.commit

/-- R91: the frame grows by its checksum. -/
def execCrcAppend (s : State) : Host.Outcome State Fault Refusal :=
  .next <|
    if Config.fbufSize < s.flen.toNat then s.fail .frameLengthInvalid
    else if Config.fbufSize < s.flen.toNat + 2 then s.fail .bufferOverflow
    else
      let c := s.checksumTo s.flen.toNat
      { s.writeFbuf s.flen.toNat (be16 c) with
        crcCalc := c, flen := BitVec.ofNat 8 (s.flen.toNat + 2) }.commit

/-- R92: compare the frame's trailer with its checksum; both are captured either way. -/
def execCrcVerify (s : State) : Host.Outcome State Fault Refusal :=
  .next <|
    if Config.fbufSize < s.flen.toNat then s.fail .frameLengthInvalid
    else if s.flen.toNat < 2 then s.fail .frameTooShort
    else
      let computed := s.checksumTo (s.flen.toNat - 2)
      let received := s.trailer s.flen.toNat
      if computed ≠ received then (s.capture computed received).fail .checksumMismatch
      else (s.capture computed received).commit

end Sys2Proof.Machine
end

