-- ==== Sys2Proof/Machine/Control.lean ====
section
/-! DEFINITION. The control commands (spec file 44): `NOP` (R147) and what an illegal command byte does
(R148). -/

namespace Sys2Proof.Machine

/-- R147. -/
def execNop (s : State) : Host.Outcome State Fault Refusal :=
  .next s.commit

/-- R148: a byte that names no command. -/
def illegalCommand (s : State) : Host.Outcome State Fault Refusal :=
  .next (s.fail .illegalCommand)

end Sys2Proof.Machine
end

