-- ==== Sys2Proof/Machine/Operands.lean ====
section
/-! DEFINITION. The operand forms of the codec commands: the payload's data types (R72, R73, R93), the
bytes an encode takes from the value registers (R102) and the register writes a decode gives (R105). -/

namespace Sys2Proof.Machine

/-- The payload variants (R72, R73): a closed set. `Undefined` (`0x00`) has none. -/
inductive DataType where
  | bool
  | uint8
  | uint32
  | dateTime
  | float32
  | string128
  | timestamp
  | bytes65
  | bytes16
  deriving DecidableEq, Repr

/-- R72: the variant of a tag byte; `none` outside `0x01`-`0x09` (R100). -/
def DataType.ofTag (t : Byte) : Option DataType :=
  match t.toNat with
  | 0x01 => some .bool
  | 0x02 => some .uint8
  | 0x03 => some .uint32
  | 0x04 => some .dateTime
  | 0x05 => some .float32
  | 0x06 => some .string128
  | 0x07 => some .timestamp
  | 0x08 => some .bytes65
  | 0x09 => some .bytes16
  | _ => none

/-- `wire_len` (R93). -/
def DataType.wireLen : DataType → Nat
  | .bool => 1
  | .uint8 => 1
  | .uint32 => 4
  | .dateTime => 8
  | .float32 => 4
  | .string128 => 128
  | .timestamp => 4
  | .bytes65 => 65
  | .bytes16 => 16

/-- `string_bytes()` (R98, R102, R104): content, one NUL, zero padding to 128 bytes. -/
def stringBytes (s : State) : Except Status (List Byte) :=
  if Config.stringMax < s.pLen.toNat then .error .stringTooLong
  else .ok (s.pdataBytes s.pLen.toNat ++ [0x00#8] ++
    List.replicate (Config.stringMax - s.pLen.toNat) 0x00#8)

/-- The raw bytes of Bytes16 and Bytes65 (R99): the given buffer must have exactly `n` bytes. -/
def rawBytes (n : Nat) (s : State) : Except Status (List Byte) :=
  if s.pLen.toNat ≠ n then .error .byteLengthInvalid else .ok (s.pdataBytes n)

/-- The payload bytes of a variant (R94-R99). -/
def variantBytes (s : State) : DataType → Except Status (List Byte)
  | .bool => .ok [(s.pVal.extractLsb' 0 1).setWidth 8]
  | .uint8 => .ok [s.pVal.extractLsb' 0 8]
  | .uint32 => .ok (be32 s.pVal)
  | .dateTime =>
    .ok ([s.dtHour, s.dtMinute, s.dtSecond, s.dtDay, s.dtMonth] ++ be16 s.dtYear ++ [s.dtDow])
  | .float32 => .ok (be32 s.pVal)
  | .string128 => stringBytes s
  | .timestamp => .ok (be32 s.pVal)
  | .bytes65 => rawBytes 65 s
  | .bytes16 => rawBytes 16 s

/-- `payload_bytes(t)` (R102). -/
def payloadBytes (t : Byte) (s : State) : Except Status (List Byte) :=
  match DataType.ofTag t with
  | none => .error .unsupportedPayloadType
  | some d => variantBytes s d

/-- The set of register writes `payload_value` returns (R105). -/
inductive PayloadValue where
  /-- `P_VAL <- v`. -/
  | scalar (v : Word)
  /-- `DT_*`. -/
  | dateTime (hour minute second day month : Byte) (year : Half) (dow : Byte)
  /-- `P_LEN <- len(bs); P_DATA[0 ..] <- bs`. -/
  | content (bs : List Byte)
  deriving DecidableEq, Repr

/-- The value of a payload region of the right length (R94-R99). -/
def variantValue (bs : List Byte) : DataType → Except Status PayloadValue
  | .bool =>
    if bs.getD 0 0 = 0x00#8 ∨ bs.getD 0 0 = 0x01#8 then .ok (.scalar ((bs.getD 0 0).setWidth 32))
    else .error .invalidBoolEncoding
  | .uint8 => .ok (.scalar ((bs.getD 0 0).setWidth 32))
  | .uint32 => .ok (.scalar (ofBe32 (bs.getD 0 0) (bs.getD 1 0) (bs.getD 2 0) (bs.getD 3 0)))
  | .dateTime =>
    .ok (.dateTime (bs.getD 0 0) (bs.getD 1 0) (bs.getD 2 0) (bs.getD 3 0) (bs.getD 4 0)
      (ofBe16 (bs.getD 5 0) (bs.getD 6 0)) (bs.getD 7 0))
  | .float32 => .ok (.scalar (ofBe32 (bs.getD 0 0) (bs.getD 1 0) (bs.getD 2 0) (bs.getD 3 0)))
  | .string128 =>
    if 0x00#8 ∈ bs then .ok (.content (bs.takeWhile (· != 0x00#8)))
    else .error .stringNotTerminated
  | .timestamp => .ok (.scalar (ofBe32 (bs.getD 0 0) (bs.getD 1 0) (bs.getD 2 0) (bs.getD 3 0)))
  | .bytes65 => .ok (.content bs)
  | .bytes16 => .ok (.content bs)

/-- `payload_value(t, bs)` (R105), its checks in the order of R106: tag, length, value. -/
def payloadValue (t : Byte) (bs : List Byte) : Except Status PayloadValue :=
  match DataType.ofTag t with
  | none => .error .unknownDataType
  | some d => if bs.length ≠ d.wireLen then .error .byteLengthInvalid else variantValue bs d

/-- Perform the writes of a decode (R105, R107): only the variant's registers, and of `P_DATA` only the
bytes of the content. -/
def State.perform (s : State) : PayloadValue → State
  | .scalar v => { s with pVal := v }
  | .dateTime hour minute second day month year dow =>
    { s with
      dtHour := hour, dtMinute := minute, dtSecond := second, dtDay := day, dtMonth := month,
      dtYear := year, dtDow := dow }
  | .content bs => { s.writePdata 0 bs with pLen := BitVec.ofNat 8 bs.length }

end Sys2Proof.Machine
end

