-- ==== Sys2Proof/Machine/Packet.lean ====
section
/-! DEFINITION. The Packet Codec (spec file 42): the six shapes, the shared encode and decode procedures
(R126-R130), the twelve shape commands (R131-R143) and the classifier (R144). -/

namespace Sys2Proof.Machine

/-- The six packet shapes (R74, R75). -/
inductive Shape where
  | error
  | info
  | query
  | write
  | epInfo
  | epQuery
  deriving DecidableEq, Repr

/-- R70: the kind byte at offset 4. EndpointInfo and EndpointQuery share `0x09` (R71). -/
def Shape.kind : Shape → Byte
  | .error => 0x00#8
  | .info => 0x01#8
  | .query => 0x02#8
  | .write => 0x04#8
  | .epInfo => 0x09#8
  | .epQuery => 0x09#8

/-- R126: `minlen`, the shortest frame a decoder accepts. -/
def Shape.minLen : Shape → Nat
  | .error => 9
  | .info => 14
  | .query => 12
  | .write => 14
  | .epInfo => 141
  | .epQuery => 12

/-- The magic bytes of R69, "HX0C". -/
def magic : List Byte := [0x48#8, 0x58#8, 0x30#8, 0x43#8]

/-- R70: the five defined kind bytes. -/
def definedKind (k : Byte) : Bool :=
  k == 0x00#8 || k == 0x01#8 || k == 0x02#8 || k == 0x04#8 || k == 0x09#8

/-- R77: the source's names for the codes an Error packet carries. The block neither checks nor
interprets the byte; no meaning below uses these names. -/
inductive PeerError where
  | success
  | unknownEid
  | writeOnReadonly
  | checksumFailed
  | dataTypeMismatch
  | invalidValue
  deriving DecidableEq, Repr

/-- R77: the byte of a name. -/
def PeerError.code : PeerError → Byte
  | .success => 0x00#8
  | .unknownEid => 0x01#8
  | .writeOnReadonly => 0x02#8
  | .checksumFailed => 0x03#8
  | .dataTypeMismatch => 0x04#8
  | .invalidValue => 0x05#8

/-- `frame_header(k)` (R127). -/
def frameHeader (sh : Shape) (s : State) : List Byte := magic ++ [sh.kind, s.fFlags]

/-- `finish_frame(body)` (R128): the frame is written from index 0, whatever `FLEN` held. -/
def finishFrame (body : List Byte) (s : State) : State :=
  let c := checksum s.params.crcInit body
  { s.writeFbuf 0 (body ++ be16 c) with
    flen := BitVec.ofNat 8 (body.length + 2), crcCalc := c }.commit

/-- The body of a Query or EndpointQuery (R134, R137). -/
def eidBody (sh : Shape) (s : State) : List Byte := frameHeader sh s ++ be32 s.fEid

/-- The encoder of Info and Write (R132, R135): the dtype byte and the variant are both `P_TYPE` (R133). -/
def encodePayloadFrame (sh : Shape) (s : State) : State :=
  match payloadBytes s.pType s with
  | .error c => s.fail c
  | .ok pb => finishFrame (eidBody sh s ++ [s.pType] ++ pb) s

/-- R131. -/
def execEncError (s : State) : Host.Outcome State Fault Refusal :=
  .next (finishFrame (frameHeader .error s ++ [s.fErrcode]) s)

/-- R132. -/
def execEncInfo (s : State) : Host.Outcome State Fault Refusal :=
  .next (encodePayloadFrame .info s)

/-- R134. -/
def execEncQuery (s : State) : Host.Outcome State Fault Refusal :=
  .next (finishFrame (eidBody .query s) s)

/-- R135. -/
def execEncWrite (s : State) : Host.Outcome State Fault Refusal :=
  .next (encodePayloadFrame .write s)

/-- R136: the byte at offset 10 is `F_DTYPE`; the description is a String128 whatever `P_TYPE` holds. -/
def execEncEpinfo (s : State) : Host.Outcome State Fault Refusal :=
  .next <|
    match stringBytes s with
    | .error c => s.fail c
    | .ok sb => finishFrame (eidBody .epInfo s ++ [s.fDtype] ++ sb) s

/-- R137. -/
def execEncEpquery (s : State) : Host.Outcome State Fault Refusal :=
  .next (finishFrame (eidBody .epQuery s) s)

/-- `decode_prologue(minlen, kind)` (R129), in the order of R152: `error t` is the state the failed
command ends in, `ok t` the state (checksums captured) in which the shape's own part goes on. -/
def decodePrologue (sh : Shape) (s : State) : Except State State :=
  let n := s.flen.toNat
  if Config.fbufSize < n then .error (s.fail .frameLengthInvalid)
  else if n < sh.minLen then .error (s.fail .frameTooShort)
  else if s.fbufBytes 0 4 ≠ magic then .error (s.fail .malformedHeader)
  else
    let computed := s.checksumTo (n - 2)
    let received := s.trailer n
    let t := s.capture computed received
    if computed ≠ received then .error (t.fail .checksumMismatch)
    else if definedKind (s.fbuf 4) = false then .error (t.fail .unknownPacketType)
    else if s.fbuf 4 ≠ sh.kind then .error (t.fail .wrongPacketType)
    else .ok t

/-- A decode command: the prologue, then the shape's own checks and writes, then `STATUS <- OK`. -/
def decodeFrame (sh : Shape) (rest : State → Except Status State) (s : State) : State :=
  match decodePrologue sh s with
  | .error t => t
  | .ok t =>
    match rest t with
    | .error c => t.fail c
    | .ok u => u.commit

/-- `F_KIND`, `F_FLAGS` and `F_EID` from the frame (R139-R143). -/
def takeEidFields (sh : Shape) (s : State) : State :=
  { s with
    fKind := sh.kind, fFlags := s.fbuf 5,
    fEid := ofBe32 (s.fbuf 6) (s.fbuf 7) (s.fbuf 8) (s.fbuf 9) }

/-- R138's own part: exactly 9 bytes. -/
def decodeErrorRest (s : State) : Except Status State :=
  if s.flen.toNat ≠ 9 then .error .frameLengthInvalid
  else .ok { s with fKind := Shape.error.kind, fFlags := s.fbuf 5, fErrcode := s.fbuf 6 }

/-- R140's and R143's own part: exactly 12 bytes. -/
def decodeEidRest (sh : Shape) (s : State) : Except Status State :=
  if s.flen.toNat ≠ 12 then .error .frameLengthInvalid else .ok (takeEidFields sh s)

/-- The payload part of R139, R141 and R142: the region `FBUF[11 .. n-3]` decoded with tag `t`; byte 10
goes to `F_DTYPE` and the tag to `P_TYPE`. -/
def decodePayloadRest (sh : Shape) (t : Byte) (s : State) : Except Status State :=
  match payloadValue t (s.fbufBytes 11 (s.flen.toNat - 13)) with
  | .error c => .error c
  | .ok w => .ok ({ takeEidFields sh s with fDtype := s.fbuf 10, pType := t }.perform w)

/-- R138. -/
def execDecError (s : State) : Host.Outcome State Fault Refusal :=
  .next (decodeFrame .error decodeErrorRest s)

/-- R139. -/
def execDecInfo (s : State) : Host.Outcome State Fault Refusal :=
  .next (decodeFrame .info (fun t => decodePayloadRest .info (t.fbuf 10) t) s)

/-- R140. -/
def execDecQuery (s : State) : Host.Outcome State Fault Refusal :=
  .next (decodeFrame .query (decodeEidRest .query) s)

/-- R141. -/
def execDecWrite (s : State) : Host.Outcome State Fault Refusal :=
  .next (decodeFrame .write (fun t => decodePayloadRest .write (t.fbuf 10) t) s)

/-- R142: always decoded as String128 (tag `0x06`), whatever the dtype byte holds. -/
def execDecEpinfo (s : State) : Host.Outcome State Fault Refusal :=
  .next (decodeFrame .epInfo (decodePayloadRest .epInfo 0x06#8) s)

/-- R143. -/
def execDecEpquery (s : State) : Host.Outcome State Fault Refusal :=
  .next (decodeFrame .epQuery (decodeEidRest .epQuery) s)

/-- R144: the kind byte alone, neither header nor checksum. -/
def execPktKind (s : State) : Host.Outcome State Fault Refusal :=
  .next <|
    if Config.fbufSize < s.flen.toNat then s.fail .frameLengthInvalid
    else if s.flen.toNat < 5 then s.fail .frameTooShort
    else if definedKind (s.fbuf 4) = false then s.fail .unknownPacketType
    else { s with fKind := s.fbuf 4 }.commit

end Sys2Proof.Machine
end

