-- ==== Sys2Proof/Machine/Payload.lean ====
section
/-! DEFINITION. The Payload Codec's two commands (spec file 41, R108 and R109). -/

namespace Sys2Proof.Machine

/-- R108: append the tag and the payload bytes to the frame. -/
def execPayEncode (s : State) : Host.Outcome State Fault Refusal :=
  .next <|
    if Config.fbufSize < s.flen.toNat then s.fail .frameLengthInvalid
    else
      match payloadBytes s.pType s with
      | .error c => s.fail c
      | .ok pb =>
        if Config.fbufSize < s.flen.toNat + 1 + pb.length then s.fail .bufferOverflow
        else
          { s.writeFbuf s.flen.toNat (s.pType :: pb) with
            flen := BitVec.ofNat 8 (s.flen.toNat + 1 + pb.length) }.commit

/-- R109: decode the whole frame as a payload with the tag in `P_TYPE`. -/
def execPayDecode (s : State) : Host.Outcome State Fault Refusal :=
  .next <|
    if Config.fbufSize < s.flen.toNat then s.fail .frameLengthInvalid
    else
      match payloadValue s.pType (s.fbufBytes 0 s.flen.toNat) with
      | .error c => s.fail c
      | .ok w => (s.perform w).commit

end Sys2Proof.Machine
end

