-- ==== Sys2Proof/Machine/Dispatch.lean ====
section
/-! DEFINITION. `exec`: one arm per command, each one call of its meaning. -/

namespace Sys2Proof.Machine

def exec (i : Instr) (s : State) : Host.Outcome State Fault Refusal :=
  match i with
  | .nop => Sys2Proof.Machine.execNop s
  | .crcInit => Sys2Proof.Machine.execCrcInit s
  | .crcFeed => Sys2Proof.Machine.execCrcFeed s
  | .crcCompute => Sys2Proof.Machine.execCrcCompute s
  | .crcAppend => Sys2Proof.Machine.execCrcAppend s
  | .crcVerify => Sys2Proof.Machine.execCrcVerify s
  | .payEncode => Sys2Proof.Machine.execPayEncode s
  | .payDecode => Sys2Proof.Machine.execPayDecode s
  | .pktKind => Sys2Proof.Machine.execPktKind s
  | .encError => Sys2Proof.Machine.execEncError s
  | .encInfo => Sys2Proof.Machine.execEncInfo s
  | .encQuery => Sys2Proof.Machine.execEncQuery s
  | .encWrite => Sys2Proof.Machine.execEncWrite s
  | .encEpinfo => Sys2Proof.Machine.execEncEpinfo s
  | .encEpquery => Sys2Proof.Machine.execEncEpquery s
  | .decError => Sys2Proof.Machine.execDecError s
  | .decInfo => Sys2Proof.Machine.execDecInfo s
  | .decQuery => Sys2Proof.Machine.execDecQuery s
  | .decWrite => Sys2Proof.Machine.execDecWrite s
  | .decEpinfo => Sys2Proof.Machine.execDecEpinfo s
  | .decEpquery => Sys2Proof.Machine.execDecEpquery s
  | .addrNorm => Sys2Proof.Machine.execAddrNorm s

end Sys2Proof.Machine
end

