-- ==== Sys2Proof/Machine/Window.lean ====
section
/-! DEFINITION. The host register window (spec file 20): the register map (R44), byte placement (R45),
reserved space (R52, R59) and the two access primitives' effect on the registers (R47). -/

namespace Sys2Proof.Machine

/-- The named registers of R15. -/
inductive Reg where
  | cmd
  | status
  | flen
  | engstat
  | crc
  | crcCalc
  | crcRecv
  | crcIn
  | fKind
  | fFlags
  | fDtype
  | fErrcode
  | fEid
  | pType
  | pLen
  | pVal
  | dtHour
  | dtMinute
  | dtSecond
  | dtDay
  | dtMonth
  | dtYear
  | dtDow
  | aCtrl
  | aPort
  deriving DecidableEq, Repr

/-- R44's register rows, in address order. -/
def Reg.all : List Reg :=
  [.cmd, .status, .flen, .engstat, .crc, .crcCalc, .crcRecv, .crcIn, .fKind, .fFlags, .fDtype,
    .fErrcode, .fEid, .pType, .pLen, .pVal, .dtHour, .dtMinute, .dtSecond, .dtDay, .dtMonth, .dtYear,
    .dtDow, .aCtrl, .aPort]

/-- R44: the register's first window address. -/
def Reg.base : Reg → Nat
  | .cmd => 0x000
  | .status => 0x001
  | .flen => 0x002
  | .engstat => 0x003
  | .crc => 0x004
  | .crcCalc => 0x006
  | .crcRecv => 0x008
  | .crcIn => 0x00A
  | .fKind => 0x00C
  | .fFlags => 0x00D
  | .fDtype => 0x00E
  | .fErrcode => 0x00F
  | .fEid => 0x010
  | .pType => 0x014
  | .pLen => 0x015
  | .pVal => 0x018
  | .dtHour => 0x01C
  | .dtMinute => 0x01D
  | .dtSecond => 0x01E
  | .dtDay => 0x01F
  | .dtMonth => 0x020
  | .dtYear => 0x021
  | .dtDow => 0x023
  | .aCtrl => 0x024
  | .aPort => 0x026

/-- R44: how many bytes the register occupies. -/
def Reg.size : Reg → Nat
  | .crc | .crcCalc | .crcRecv | .dtYear | .aPort => 2
  | .fEid | .pVal => 4
  | .cmd | .status | .flen | .engstat | .crcIn | .fKind | .fFlags | .fDtype | .fErrcode | .pType
  | .pLen | .dtHour | .dtMinute | .dtSecond | .dtDay | .dtMonth | .dtDow | .aCtrl => 1

/-- R17, R18, R21, R22: the host's writes to these are ignored. -/
def Reg.readOnly : Reg → Bool
  | .status | .engstat | .crcCalc | .crcRecv => true
  | .cmd | .flen | .crc | .crcIn | .fKind | .fFlags | .fDtype | .fErrcode | .fEid | .pType | .pLen
  | .pVal | .dtHour | .dtMinute | .dtSecond | .dtDay | .dtMonth | .dtYear | .dtDow | .aCtrl
  | .aPort => false

/-- R59: `A_CTRL` and `A_PORT` exist only with the address unit. -/
def Reg.present (p : Params) : Reg → Bool
  | .aCtrl | .aPort => p.hasAddrUnit
  | .cmd | .status | .flen | .engstat | .crc | .crcCalc | .crcRecv | .crcIn | .fKind | .fFlags
  | .fDtype | .fErrcode | .fEid | .pType | .pLen | .pVal | .dtHour | .dtMinute | .dtSecond | .dtDay
  | .dtMonth | .dtYear | .dtDow => true

/-- The register's bytes as the host reads them, most significant first (R45). Reserved bits of
`ENGSTAT` and `A_CTRL` read 0 (R52). -/
def Reg.bytes (s : State) : Reg → List Byte
  | .cmd => [s.cmd]
  | .status => [s.status]
  | .flen => [s.flen]
  | .engstat => [s.engstat &&& 0x01#8]
  | .crc => be16 s.crc
  | .crcCalc => be16 s.crcCalc
  | .crcRecv => be16 s.crcRecv
  | .crcIn => [s.crcIn]
  | .fKind => [s.fKind]
  | .fFlags => [s.fFlags]
  | .fDtype => [s.fDtype]
  | .fErrcode => [s.fErrcode]
  | .fEid => be32 s.fEid
  | .pType => [s.pType]
  | .pLen => [s.pLen]
  | .pVal => be32 s.pVal
  | .dtHour => [s.dtHour]
  | .dtMinute => [s.dtMinute]
  | .dtSecond => [s.dtSecond]
  | .dtDay => [s.dtDay]
  | .dtMonth => [s.dtMonth]
  | .dtYear => be16 s.dtYear
  | .dtDow => [s.dtDow]
  | .aCtrl => [s.aCtrl &&& 0x01#8]
  | .aPort => be16 s.aPort

/-- The 16-bit value of a register's bytes. -/
def half (bs : List Byte) : Half := ofBe16 (bs.getD 0 0) (bs.getD 1 0)

/-- The 32-bit value of a register's bytes. -/
def word (bs : List Byte) : Word := ofBe32 (bs.getD 0 0) (bs.getD 1 0) (bs.getD 2 0) (bs.getD 3 0)

/-- Give a register the value of `bs`; a read-only register keeps its own. Of `A_CTRL` only bit 0 is
stored (R35, R47). -/
def Reg.put (s : State) (bs : List Byte) : Reg → State
  | .status | .engstat | .crcCalc | .crcRecv => s
  | .cmd => { s with cmd := bs.getD 0 0 }
  | .flen => { s with flen := bs.getD 0 0 }
  | .crc => { s with crc := half bs }
  | .crcIn => { s with crcIn := bs.getD 0 0 }
  | .fKind => { s with fKind := bs.getD 0 0 }
  | .fFlags => { s with fFlags := bs.getD 0 0 }
  | .fDtype => { s with fDtype := bs.getD 0 0 }
  | .fErrcode => { s with fErrcode := bs.getD 0 0 }
  | .fEid => { s with fEid := word bs }
  | .pType => { s with pType := bs.getD 0 0 }
  | .pLen => { s with pLen := bs.getD 0 0 }
  | .pVal => { s with pVal := word bs }
  | .dtHour => { s with dtHour := bs.getD 0 0 }
  | .dtMinute => { s with dtMinute := bs.getD 0 0 }
  | .dtSecond => { s with dtSecond := bs.getD 0 0 }
  | .dtDay => { s with dtDay := bs.getD 0 0 }
  | .dtMonth => { s with dtMonth := bs.getD 0 0 }
  | .dtYear => { s with dtYear := half bs }
  | .dtDow => { s with dtDow := bs.getD 0 0 }
  | .aCtrl => { s with aCtrl := bs.getD 0 0 &&& 0x01#8 }
  | .aPort => { s with aPort := half bs }

/-- What stands at a window address. -/
inductive Loc where
  /-- Byte `k` of a register, byte 0 the most significant (R45). -/
  | reg (r : Reg) (k : Nat)
  /-- `P_DATA[i]`. -/
  | pdata (i : Nat)
  /-- `FBUF[i]`. -/
  | fbuf (i : Nat)
  /-- Reserved: reads 0, writes ignored (R52). -/
  | reserved
  deriving DecidableEq, Repr

/-- R44, R52, R59: the register map. -/
def locate (p : Params) (a : Nat) : Loc :=
  if pdataBase ≤ a ∧ a < pdataBase + Config.pdataSize then .pdata (a - pdataBase)
  else if fbufBase ≤ a ∧ a < fbufBase + Config.fbufSize then .fbuf (a - fbufBase)
  else
    match Reg.all.find? fun r => r.present p && r.base ≤ a && a < r.base + r.size with
    | some r => .reg r (a - r.base)
    | none => .reserved

/-- The byte at a place. -/
def Loc.read (s : State) : Loc → Byte
  | .reg r k => (r.bytes s).getD k 0
  | .pdata i => s.pdata i
  | .fbuf i => s.fbuf i
  | .reserved => 0x00#8

/-- Store a byte at a place: of a register only the byte's own 8 bits change (R45). -/
def Loc.write (s : State) (v : Byte) : Loc → State
  | .reg r k => r.put s ((r.bytes s).set k v)
  | .pdata i => s.writePdata i [v]
  | .fbuf i => s.writeFbuf i [v]
  | .reserved => s

/-- `MemRead(a, 1)` (R47): the byte returned. A read changes nothing (R50). -/
def State.memRead (s : State) (a : Addr) : Byte := (locate s.params a.toNat).read s

/-- `MemWrite(a, 1, v)` (R47) but for the command a write to `CMD` then runs. -/
def State.memWrite (s : State) (a : Addr) (v : Byte) : State := (locate s.params a.toNat).write s v

/-- The window address of `ENGSTAT` (R44). -/
def engstatAddr : Addr := 0x003#10

/-- The window address of `CMD` (R44). -/
def cmdAddr : Addr := 0x000#10

end Sys2Proof.Machine
end

