-- ==== Sys2Proof/Machine/Bus.lean ====
section
/-! DEFINITION. One host bus transaction (R42, R47, R54): the block's only way to receive operands and
commands (R41). -/

namespace Sys2Proof.Machine

/-- R16, R66, R148: perform the command a byte selects. -/
def runCommand (b : Byte) (s : State) : Host.Outcome State Fault Refusal :=
  match decode b with
  | some i => exec i s
  | none => illegalCommand s

/-- `MemRead(a, 1)`: the byte goes back to the host and nothing else changes (R50). -/
def busRead (a : Addr) (s : State) : State := { s with returned := s.memRead a :: s.returned }

/-- `MemWrite(a, 1, v)`: store, and at `CMD` then perform command `v` (R16, R47). -/
def busWrite (a : Addr) (v : Byte) (s : State) : Host.Outcome State Fault Refusal :=
  if a = cmdAddr then runCommand v (s.memWrite a v) else .next (s.memWrite a v)

/-- R168: while `BUSY = 1` the host may access `ENGSTAT` only. -/
def busAllowed (a : Addr) (s : State) : Bool := !s.busy || a == engstatAddr

/-- One bus word (R68): refused if it is no transaction (R42) or breaks the BUSY duty (R168). -/
def busStep (w : BusWord) (s : State) : Host.Outcome State Fault Refusal :=
  match decodeBus w with
  | none => .refused .malformedBusWord
  | some (.read a) =>
    if busAllowed a s then .next (busRead a s) else .refused .hostProtocolViolation
  | some (.write a v) =>
    if busAllowed a s then busWrite a v s else .refused .hostProtocolViolation

/-- The bus word by which the host issues the command byte `b` (R80: `cmd M`). -/
def commandWord (b : Byte) : BusWord := encodeBus (.write cmdAddr b)

/-- The next thing from outside (R41, R54, R165): nothing, so the block does nothing; a reset; or a bus
word. -/
def hostStep (s : State) : Host.Outcome State Fault Refusal :=
  match s.pending with
  | [] => .next s
  | .reset :: rest => .next { s with pending := rest }.resetEvent
  | .word w :: rest => busStep w { s with pending := rest }

end Sys2Proof.Machine
end

