-- ==== Sys2Proof/Machine/Step.lean ====
section
/-! DEFINITION. The machine's step and the word it runs next. -/

namespace Sys2Proof.Machine

/-- One step: the next bus transaction or reset from outside, in the host's program order (R41, R54).
The block has no program counter and fetches nothing (R14). -/
def step (s : State) : Host.Outcome State Fault Refusal := hostStep s

/-- `s` with the command byte of an opcode-table word as the host's next bus write, to `CMD`. The block
is not busy, so that the write is allowed (R168). -/
def State.withFetchWord (s : State) (nbits w : Nat) : State :=
  { s with
    engstat := s.engstat &&& 0xFE#8
    pending := .word (commandWord (BitVec.ofNat 8 (w % 2 ^ nbits))) :: s.pending }

end Sys2Proof.Machine
end

