-- ==== Sys2Proof/Machine/HostAsm.lean ====
section
/-! DEFINITION. The host assembly of R79 and R80 and its expansion into bus words (R68). It is the host's
notation; the machine sees the words alone. -/

namespace Sys2Proof.Machine

/-- R79: an address operand. -/
inductive AsmAddr where
  /-- A register name, standing for its base address. -/
  | reg (r : Reg)
  /-- `FBUF+i`. -/
  | fbuf (i : Nat)
  /-- `P_DATA+i`. -/
  | pdata (i : Nat)
  /-- `0xNNN`. -/
  | abs (a : Nat)
  deriving DecidableEq, Repr

/-- R79: the address an operand stands for. -/
def AsmAddr.value : AsmAddr → Nat
  | .reg r => r.base
  | .fbuf i => fbufBase + i
  | .pdata i => pdataBase + i
  | .abs a => a

/-- R80: the host's instructions and pseudo-instructions. -/
inductive HostAsm where
  | wr (a : AsmAddr) (v : Byte)
  | rd (a : AsmAddr)
  | cmd (i : Instr)
  | wr16 (a : AsmAddr) (v : Half)
  | wr32 (a : AsmAddr) (v : Word)
  | wrbuf (a : AsmAddr) (bs : List Byte)
  | rd16 (a : AsmAddr)
  | rd32 (a : AsmAddr)
  | poll
  deriving DecidableEq, Repr

/-- Writes of consecutive bytes from address `a` on; `none` where one falls outside the window (R43). -/
def asmWrites (a : Nat) : List Byte → Option (List BusWord)
  | [] => some []
  | v :: vs =>
    if a < 1024 then
      match asmWrites (a + 1) vs with
      | some ws => some (encodeBus (.write (BitVec.ofNat 10 a) v) :: ws)
      | none => none
    else none

/-- Reads of `n` consecutive bytes from address `a` on; `none` where one falls outside the window. -/
def asmReads (a : Nat) : Nat → Option (List BusWord)
  | 0 => some []
  | n + 1 =>
    if a < 1024 then
      match asmReads (a + 1) n with
      | some ws => some (encodeBus (.read (BitVec.ofNat 10 a)) :: ws)
      | none => none
    else none

/-- R80: the expansion. `poll` is one read of `ENGSTAT`: in the atomic model `BUSY` reads 0 at once (R18). -/
def HostAsm.expand : HostAsm → Option (List BusWord)
  | .wr a v => asmWrites a.value [v]
  | .rd a => asmReads a.value 1
  | .cmd i => asmWrites Reg.cmd.base [encode i]
  | .wr16 a v => asmWrites a.value (be16 v)
  | .wr32 a v => asmWrites a.value (be32 v)
  | .wrbuf a bs => asmWrites a.value bs
  | .rd16 a => asmReads a.value 2
  | .rd32 a => asmReads a.value 4
  | .poll => asmReads Reg.engstat.base 1

/-- A host program: its lines' words in order. -/
def assemble : List HostAsm → Option (List BusWord)
  | [] => some []
  | l :: ls =>
    match l.expand, assemble ls with
    | some ws, some rest => some (ws ++ rest)
    | _, _ => none

/-- The state in which a host program is still to be delivered after what is pending already. -/
def State.enqueue (s : State) (ws : List BusWord) : State :=
  { s with pending := s.pending ++ ws.map .word }

end Sys2Proof.Machine
end

