-- ==== Sys2Proof/Safety.lean ====
section
/-! DEFINITION. What a safe run keeps: the machine's invariant, the host's duty, and the write sets that
the spec gives registers and commands, in the terms the statements use. -/

namespace Sys2Proof.Machine

/-- What every state of a run satisfies.
`mem`: the buffer memory is in canonical form (log entry 1) and inside the buffers (R44, R51).
`status`: `STATUS` holds a code of R150.
`engstat`: `BUSY` is 0 between steps and the reserved bits are 0 (R18).
`aCtrl`: the reserved bits are 0 (R35).
`noUnit`: without the address unit the fields of its registers, which R59 says do not exist then, keep
their reset value (log entry 9). -/
structure State.Inv (s : State) : Prop where
  mem : Memory.wf s.mem
  status : ∃ c : Status, s.status = c.code
  engstat : s.engstat = 0x00#8
  aCtrl : s.aCtrl = 0x00#8 ∨ s.aCtrl = 0x01#8
  noUnit : s.params.hasAddrUnit = false → s.aCtrl = 0x00#8 ∧ s.aPort = 0x0000#16

/-- The host's duty: every bus word it still has to deliver is a transaction (R42, R68). -/
def State.hostWordsWellFormed (s : State) : Prop :=
  ∀ w, HostEvent.word w ∈ s.pending → BusWord.wellFormed w = true

end Sys2Proof.Machine

namespace Sys2Proof

open Sys2Proof.Machine

/-- R151: the codes a command can write into `STATUS`. -/
def Instr.mayReport (p : Params) : Instr → List Status
  | .nop | .crcInit | .crcFeed | .encError | .encQuery | .encEpquery => [.ok]
  | .crcCompute => [.ok, .frameLengthInvalid]
  | .crcAppend => [.ok, .frameLengthInvalid, .bufferOverflow]
  | .crcVerify => [.ok, .frameLengthInvalid, .frameTooShort, .checksumMismatch]
  | .payEncode =>
    [.ok, .frameLengthInvalid, .unsupportedPayloadType, .stringTooLong, .byteLengthInvalid,
      .bufferOverflow]
  | .payDecode =>
    [.ok, .frameLengthInvalid, .unknownDataType, .byteLengthInvalid, .invalidBoolEncoding,
      .stringNotTerminated]
  | .pktKind => [.ok, .frameLengthInvalid, .frameTooShort, .unknownPacketType]
  | .encInfo | .encWrite => [.ok, .unsupportedPayloadType, .stringTooLong, .byteLengthInvalid]
  | .encEpinfo => [.ok, .stringTooLong]
  | .decError | .decQuery | .decEpquery =>
    [.ok, .frameLengthInvalid, .frameTooShort, .malformedHeader, .checksumMismatch,
      .unknownPacketType, .wrongPacketType]
  | .decInfo | .decWrite =>
    [.ok, .frameLengthInvalid, .frameTooShort, .malformedHeader, .checksumMismatch,
      .unknownPacketType, .wrongPacketType, .unknownDataType, .byteLengthInvalid,
      .invalidBoolEncoding, .stringNotTerminated]
  | .decEpinfo =>
    [.ok, .frameLengthInvalid, .frameTooShort, .malformedHeader, .checksumMismatch,
      .unknownPacketType, .wrongPacketType, .byteLengthInvalid, .stringNotTerminated]
  | .addrNorm => if p.hasAddrUnit then [.ok] else [.illegalCommand]

end Sys2Proof

namespace Sys2Proof.Machine

/-- `m'` is `m` with `bs` stored at addresses `a`, `a + 1`, …: those bytes hold `bs`, and every other
byte of memory is as it was. -/
def Memory.StoresRun (m m' : Memory) (a : Nat) (bs : List Byte) : Prop :=
  (∀ k, k < bs.length → Memory.byte? m' (a + k) = bs[k]?) ∧
    ∀ x, ¬(a ≤ x ∧ x < a + bs.length) → Memory.byte? m' x = Memory.byte? m x

/-- The decode commands with their `minlen` and kind byte (R126, R138-R143). -/
def decoders : List (Instr × Nat × Byte) :=
  [(.decError, 9, 0x00#8), (.decInfo, 14, 0x01#8), (.decQuery, 12, 0x02#8), (.decWrite, 14, 0x04#8),
    (.decEpinfo, 141, 0x09#8), (.decEpquery, 12, 0x09#8)]

end Sys2Proof.Machine

namespace Sys2Proof

open Sys2Proof.Machine

/-- R152, R154: the command reaches its checksum step, where `capture` writes `CRC_CALC` and `CRC_RECV`. -/
def Instr.reachesChecksum (i : Instr) (s : State) : Prop :=
  (i = .crcVerify ∧ 2 ≤ s.flen.toNat ∧ s.flen.toNat ≤ 152) ∨
    ∃ minLen kind, (i, minLen, kind) ∈ decoders ∧ minLen ≤ s.flen.toNat ∧ s.flen.toNat ≤ 152 ∧
      s.fbufBytes 0 4 = [0x48#8, 0x58#8, 0x30#8, 0x43#8]

end Sys2Proof

namespace Sys2Proof.Machine

/-- The state with the checksum of the frame's bytes before its trailer, and its trailer, captured
(R129, R92). -/
def State.captured (s : State) : State :=
  { s with
    crcCalc := checksum s.params.crcInit (s.fbufBytes 0 (s.flen.toNat - 2))
    crcRecv := ofBe16 (s.fbuf (s.flen.toNat - 2)) (s.fbuf (s.flen.toNat - 1)) }

/-- The header is right and the checksum verifies (steps 3 and 4 of R152). -/
def State.frameVerifies (s : State) : Prop :=
  s.fbufBytes 0 4 = [0x48#8, 0x58#8, 0x30#8, 0x43#8] ∧ s.captured.crcCalc = s.captured.crcRecv

/-- R129, R130: the failures of `decode_prologue(minLen, kind)`, each in its place in the order: the
conditions of a step assume that the steps before it passed. -/
def PrologueFailures (i : Instr) (minLen : Nat) (kind : Byte) : Prop :=
  ∀ s : State,
    (152 < s.flen.toNat → exec i s = .next { s with status := 0x11#8 }) ∧
    (s.flen.toNat ≤ 152 → s.flen.toNat < minLen → exec i s = .next { s with status := 0x10#8 }) ∧
    (s.flen.toNat ≤ 152 → minLen ≤ s.flen.toNat →
      (s.fbufBytes 0 4 ≠ [0x48#8, 0x58#8, 0x30#8, 0x43#8] →
        exec i s = .next { s with status := 0x01#8 }) ∧
      (s.fbufBytes 0 4 = [0x48#8, 0x58#8, 0x30#8, 0x43#8] →
        s.captured.crcCalc ≠ s.captured.crcRecv →
        exec i s = .next { s.captured with status := 0x02#8 }) ∧
      (s.frameVerifies →
        (s.fbuf 4 ∉ [0x00#8, 0x01#8, 0x02#8, 0x04#8, 0x09#8] →
          exec i s = .next { s.captured with status := 0x03#8 }) ∧
        (s.fbuf 4 ∈ [0x00#8, 0x01#8, 0x02#8, 0x04#8, 0x09#8] → s.fbuf 4 ≠ kind →
          exec i s = .next { s.captured with status := 0x12#8 })))

/-- The frame passes `decode_prologue(minLen, kind)` (R129). -/
def State.passesPrologue (s : State) (minLen : Nat) (kind : Byte) : Prop :=
  minLen ≤ s.flen.toNat ∧ s.flen.toNat ≤ 152 ∧ s.frameVerifies ∧ s.fbuf 4 = kind

/-- R110: the value registers of `u` hold the same payload value of tag `t` as those of `s`. -/
def SameValue (t : Byte) (s u : State) : Prop :=
  (t = 0x01#8 → u.pVal.getLsbD 0 = s.pVal.getLsbD 0) ∧
  (t = 0x02#8 → u.pVal.extractLsb' 0 8 = s.pVal.extractLsb' 0 8) ∧
  (t = 0x03#8 ∨ t = 0x05#8 ∨ t = 0x07#8 → u.pVal = s.pVal) ∧
  (t = 0x04#8 →
    u.dtHour = s.dtHour ∧ u.dtMinute = s.dtMinute ∧ u.dtSecond = s.dtSecond ∧ u.dtDay = s.dtDay ∧
      u.dtMonth = s.dtMonth ∧ u.dtYear = s.dtYear ∧ u.dtDow = s.dtDow) ∧
  (t = 0x06#8 ∨ t = 0x08#8 ∨ t = 0x09#8 →
    u.pLen = s.pLen ∧ ∀ k, k < s.pLen.toNat → u.pdata k = s.pdata k)

/-- R110's proviso: a String128's content holds no `0x00`. -/
def State.contentHasNoNul (s : State) : Prop := ∀ k, k < s.pLen.toNat → s.pdata k ≠ 0x00#8

/-- R44: the read-only register bytes. -/
def readOnlyAddr (a : Nat) : Prop := a = 0x001 ∨ a = 0x003 ∨ (0x006 ≤ a ∧ a ≤ 0x009)

/-- R52: the reserved window addresses. -/
def reservedAddr (p : Params) (a : Nat) : Prop :=
  a = 0x00B ∨ a = 0x016 ∨ a = 0x017 ∨ a = 0x025 ∨ (0x028 ≤ a ∧ a ≤ 0x07F) ∨
    (0x198 ≤ a ∧ a ≤ 0x3FF) ∨ (p.hasAddrUnit = false ∧ 0x024 ≤ a ∧ a ≤ 0x027)

end Sys2Proof.Machine
end

