-- ==== Sys2Proof/Certificates/Slice0/Obligations.lean ====
section
/-! DEFINITION. The statements for the provers. Each docstring names the rules it formalises. -/

open Sys2Proof Sys2Proof.Machine

/-! ### Encodings -/

/-- R66: the command map; every byte it does not list names no command. -/
def Obligations.CommandMapDecodesAsListed : Prop :=
  decode 0x00#8 = some .nop ∧ decode 0x01#8 = some .crcInit ∧ decode 0x02#8 = some .crcFeed ∧
  decode 0x03#8 = some .crcCompute ∧ decode 0x04#8 = some .crcAppend ∧
  decode 0x05#8 = some .crcVerify ∧ decode 0x08#8 = some .payEncode ∧
  decode 0x09#8 = some .payDecode ∧ decode 0x0F#8 = some .pktKind ∧
  decode 0x10#8 = some .encError ∧ decode 0x11#8 = some .encInfo ∧
  decode 0x12#8 = some .encQuery ∧ decode 0x13#8 = some .encWrite ∧
  decode 0x14#8 = some .encEpinfo ∧ decode 0x15#8 = some .encEpquery ∧
  decode 0x20#8 = some .decError ∧ decode 0x21#8 = some .decInfo ∧
  decode 0x22#8 = some .decQuery ∧ decode 0x23#8 = some .decWrite ∧
  decode 0x24#8 = some .decEpinfo ∧ decode 0x25#8 = some .decEpquery ∧
  decode 0x30#8 = some .addrNorm ∧
  ∀ b : Byte,
    b ∉ [0x00#8, 0x01#8, 0x02#8, 0x03#8, 0x04#8, 0x05#8, 0x08#8, 0x09#8, 0x0F#8, 0x10#8, 0x11#8,
      0x12#8, 0x13#8, 0x14#8, 0x15#8, 0x20#8, 0x21#8, 0x22#8, 0x23#8, 0x24#8, 0x25#8, 0x30#8] →
    decode b = none

/-- R63, R66, R68: decoding and encoding are inverse to each other, for command bytes and for host bus
words, with every address and every data value. -/
def Obligations.DecodeAndEncodeAgree : Prop :=
  (∀ i : Instr, decode (encode i) = some i) ∧
  (∀ (b : Byte) (i : Instr), decode b = some i → encode i = b) ∧
  (∀ op : BusOp, decodeBus (encodeBus op) = some op) ∧
  (∀ (w : BusWord) (op : BusOp), decodeBus w = some op → encodeBus op = w)

/-- R68: the fields of a bus word, `W` at bit 18, `addr` at 17:8, `data` at 7:0. A read whose data field
is not 0 is no transaction, and the step that meets it refuses (R42; log entry 4, the model's reading). -/
def Obligations.BusWordFieldsSelectTheTransaction : Prop :=
  (∀ w : BusWord, w.getLsbD 18 = true →
    decodeBus w = some (.write (w.extractLsb' 8 10) (w.extractLsb' 0 8))) ∧
  (∀ w : BusWord, w.getLsbD 18 = false → w.extractLsb' 0 8 = 0x00#8 →
    decodeBus w = some (.read (w.extractLsb' 8 10))) ∧
  (∀ (w : BusWord) (s : State) (rest : List HostEvent),
    w.getLsbD 18 = false → w.extractLsb' 0 8 ≠ 0x00#8 → s.pending = .word w :: rest →
    step s = .refused .malformedBusWord)

/-- R80, R79: each line of host assembly expands into the bus words that stand for its transactions. -/
def Obligations.HostAssemblyExpandsAsTabled : Prop :=
  ∀ (a : AsmAddr) (v : Byte) (h : Half) (x : Word) (bs : List Byte) (i : Instr),
    let at' (k : Nat) : Addr := BitVec.ofNat 10 (a.value + k)
    (a.value < 1024 →
      (HostAsm.wr a v).expand = some [encodeBus (.write (at' 0) v)] ∧
      (HostAsm.rd a).expand = some [encodeBus (.read (at' 0))]) ∧
    (HostAsm.cmd i).expand = some [encodeBus (.write 0x000#10 (encode i))] ∧
    (a.value + 1 < 1024 →
      (HostAsm.wr16 a h).expand = some [encodeBus (.write (at' 0) (h.extractLsb' 8 8)),
        encodeBus (.write (at' 1) (h.extractLsb' 0 8))] ∧
      (HostAsm.rd16 a).expand = some [encodeBus (.read (at' 0)), encodeBus (.read (at' 1))]) ∧
    (a.value + 3 < 1024 →
      (HostAsm.wr32 a x).expand = some [encodeBus (.write (at' 0) (x.extractLsb' 24 8)),
        encodeBus (.write (at' 1) (x.extractLsb' 16 8)),
        encodeBus (.write (at' 2) (x.extractLsb' 8 8)),
        encodeBus (.write (at' 3) (x.extractLsb' 0 8))] ∧
      (HostAsm.rd32 a).expand = some [encodeBus (.read (at' 0)), encodeBus (.read (at' 1)),
        encodeBus (.read (at' 2)), encodeBus (.read (at' 3))]) ∧
    (a.value + bs.length ≤ 1024 →
      (HostAsm.wrbuf a bs).expand =
        some (bs.mapIdx fun k b => encodeBus (.write (at' k) b))) ∧
    HostAsm.poll.expand = some [encodeBus (.read 0x003#10)]

/-! ### The step: what reaches the block from outside -/

/-- R16, R41, R66: a host write to `CMD` stores the byte and performs the command it selects, as one
step. -/
def Obligations.StepRunsTheDecodedCommand : Prop :=
  ∀ (s : State) (w : BusWord) (rest : List HostEvent) (i : Instr),
    s.busy = false → s.pending = .word w :: rest →
    w.getLsbD 18 = true → w.extractLsb' 8 10 = 0x000#10 → decode (w.extractLsb' 0 8) = some i →
    step s = exec i { s with pending := rest, cmd := w.extractLsb' 0 8 }

/-- R148: an illegal command byte, `0x30` without the address unit included, stays readable in `CMD`,
`STATUS` becomes `IllegalCommand` and no other state changes (the delivered event leaves `pending`, the
model's own list, log entry 3). -/
def Obligations.IllegalCommandByteOnlyReports : Prop :=
  ∀ (s : State) (w : BusWord) (rest : List HostEvent) (b : Byte),
    s.busy = false → s.pending = .word w :: rest →
    w.getLsbD 18 = true → w.extractLsb' 8 10 = 0x000#10 → w.extractLsb' 0 8 = b →
    (b = 0x06#8 ∨ b = 0x07#8 ∨ (0x0A ≤ b.toNat ∧ b.toNat ≤ 0x0E) ∨
      (0x16 ≤ b.toNat ∧ b.toNat ≤ 0x1F) ∨ (0x26 ≤ b.toNat ∧ b.toNat ≤ 0x2F) ∨ 0x31 ≤ b.toNat ∨
      (b = 0x30#8 ∧ s.params.hasAddrUnit = false)) →
    step s = .next { s with pending := rest, cmd := b, status := 0x1F#8 }

/-- R47, R50: a host read returns the byte at its address and changes nothing else; a host write to an
address other than `CMD` stores and changes nothing else. -/
def Obligations.StepPerformsHostReadsAndWrites : Prop :=
  ∀ (s : State) (w : BusWord) (rest : List HostEvent),
    s.busy = false → s.pending = .word w :: rest →
    (w.getLsbD 18 = false → w.extractLsb' 0 8 = 0x00#8 →
      step s = .next
        { s with pending := rest, returned := s.memRead (w.extractLsb' 8 10) :: s.returned }) ∧
    (w.getLsbD 18 = true → w.extractLsb' 8 10 ≠ 0x000#10 →
      step s = .next (({ s with pending := rest } : State).memWrite
        (w.extractLsb' 8 10) (w.extractLsb' 0 8)))

/-- R168: while `BUSY = 1` a host access to any address other than `ENGSTAT` has no meaning and is
refused. R18: a read of `ENGSTAT` returns 1 in bit 0 and 0 in the reserved bits, and a host write to it is
ignored. That a state with `BUSY = 1` behaves so in the atomic model is log entry 5 (DEDUCED); the lists
`pending` and `returned` are the model's own (log entry 3). -/
def Obligations.AccessWhileBusyIsRefused : Prop :=
  ∀ (s : State) (w : BusWord) (rest : List HostEvent),
    s.busy = true → s.pending = .word w :: rest → decodeBus w ≠ none →
    (w.extractLsb' 8 10 ≠ 0x003#10 → step s = .refused .hostProtocolViolation) ∧
    (w.extractLsb' 8 10 = 0x003#10 → w.getLsbD 18 = false →
      step s = .next { s with pending := rest, returned := 0x01#8 :: s.returned }) ∧
    (w.extractLsb' 8 10 = 0x003#10 → w.getLsbD 18 = true → step s = .next { s with pending := rest })

/-- R41: the block never starts a step of its own. -/
def Obligations.IdleBlockDoesNothing : Prop :=
  ∀ s : State, s.pending = [] → step s = .next s

/-! ### The register window -/

/-- R44, R45, R59: what a host read returns at every address of the window, the registers big-endian. -/
def Obligations.WindowReadsFollowTheRegisterMap : Prop :=
  ∀ s : State,
    (∀ p ∈ ([(0x000, s.cmd), (0x001, s.status), (0x002, s.flen), (0x003, s.engstat &&& 0x01#8),
        (0x004, s.crc.extractLsb' 8 8), (0x005, s.crc.extractLsb' 0 8),
        (0x006, s.crcCalc.extractLsb' 8 8), (0x007, s.crcCalc.extractLsb' 0 8),
        (0x008, s.crcRecv.extractLsb' 8 8), (0x009, s.crcRecv.extractLsb' 0 8),
        (0x00A, s.crcIn), (0x00C, s.fKind), (0x00D, s.fFlags), (0x00E, s.fDtype),
        (0x00F, s.fErrcode), (0x010, s.fEid.extractLsb' 24 8), (0x011, s.fEid.extractLsb' 16 8),
        (0x012, s.fEid.extractLsb' 8 8), (0x013, s.fEid.extractLsb' 0 8), (0x014, s.pType),
        (0x015, s.pLen), (0x018, s.pVal.extractLsb' 24 8), (0x019, s.pVal.extractLsb' 16 8),
        (0x01A, s.pVal.extractLsb' 8 8), (0x01B, s.pVal.extractLsb' 0 8), (0x01C, s.dtHour),
        (0x01D, s.dtMinute), (0x01E, s.dtSecond), (0x01F, s.dtDay), (0x020, s.dtMonth),
        (0x021, s.dtYear.extractLsb' 8 8), (0x022, s.dtYear.extractLsb' 0 8), (0x023, s.dtDow)] :
          List (Nat × Byte)), s.memRead (BitVec.ofNat 10 p.1) = p.2) ∧
    (s.params.hasAddrUnit = true →
      s.memRead 0x024#10 = s.aCtrl &&& 0x01#8 ∧ s.memRead 0x026#10 = s.aPort.extractLsb' 8 8 ∧
        s.memRead 0x027#10 = s.aPort.extractLsb' 0 8) ∧
    (∀ i, i < 128 → s.memRead (BitVec.ofNat 10 (0x080 + i)) = s.pdata i) ∧
    (∀ i, i < 152 → s.memRead (BitVec.ofNat 10 (0x100 + i)) = s.fbuf i) ∧
    (∀ a : Addr, reservedAddr s.params a.toNat → s.memRead a = 0x00#8)

/-- R45, R47, R54: a host write to a writable byte is what a later read of it returns (of `A_CTRL` only
bit 0), and no other byte of the window reads differently. -/
def Obligations.WindowWriteChangesItsOwnByteOnly : Prop :=
  ∀ (s : State) (a : Addr) (v : Byte),
    (¬ readOnlyAddr a.toNat → ¬ reservedAddr s.params a.toNat →
      (s.memWrite a v).memRead a = if a = 0x024#10 then v &&& 0x01#8 else v) ∧
    (∀ b : Addr, b ≠ a → (s.memWrite a v).memRead b = s.memRead b) ∧
    ((s.memWrite a v).params = s.params ∧ (s.memWrite a v).pending = s.pending ∧
      (s.memWrite a v).returned = s.returned ∧ (s.memWrite a v).epoch = s.epoch)

/-- R52: reserved bytes and bits read 0, and writes to them are ignored. -/
def Obligations.ReservedSpaceReadsZeroAndIgnoresWrites : Prop :=
  (∀ (s : State) (a : Addr) (v : Byte), reservedAddr s.params a.toNat →
    s.memRead a = 0x00#8 ∧ s.memWrite a v = s) ∧
  (∀ s : State, s.memRead 0x003#10 &&& 0xFE#8 = 0x00#8 ∧ s.memRead 0x024#10 &&& 0xFE#8 = 0x00#8) ∧
  (∀ (s : State) (v : Byte), s.memWrite 0x003#10 v = s ∧
    s.memWrite 0x024#10 v = s.memWrite 0x024#10 (v &&& 0x01#8))

/-- R17, R18, R21, R22: a host write to a read-only register is ignored. -/
def Obligations.ReadOnlyRegistersIgnoreHostWrites : Prop :=
  ∀ (s : State) (a : Addr) (v : Byte), readOnlyAddr a.toNat → s.memWrite a v = s

/-- R50: no read has a side effect, and a write to any address other than `CMD` is idempotent; a write
to `CMD` runs a command each time, and two runs need not leave the same state. The lists `pending` and
`returned`, which record the transaction, are the model's own (log entry 3). -/
def Obligations.ReadsAndPlainWritesAreIdempotent : Prop :=
  (∀ (s : State) (w : BusWord) (rest : List HostEvent), s.busy = false →
    s.pending = .word w :: rest → w.getLsbD 18 = false → w.extractLsb' 0 8 = 0x00#8 →
    step s = .next
      { s with pending := rest, returned := s.memRead (w.extractLsb' 8 10) :: s.returned }) ∧
  (∀ (s : State) (a : Addr) (v : Byte), (s.memWrite a v).memWrite a v = s.memWrite a v) ∧
  (∃ s t u : State, exec .crcFeed s = .next t ∧ exec .crcFeed t = .next u ∧ u ≠ t)

/-- R61, R33, R34: a buffer byte that nothing has written since reset reads as the free byte of its
address and of the reset it dates from. The form of the free value is the model's (log entry 1); the
statement holds whatever that byte is. -/
def Obligations.UnwrittenBufferByteReadsAsFreeByte : Prop :=
  ∀ (s : State) (a : Addr), 0x080 ≤ a.toNat → a.toNat < 0x198 →
    (Memory.byte? s.mem a.toNat = none → s.memRead a = Config.powerUpByte s.epoch a.toNat) ∧
    (∀ v, Memory.byte? s.mem a.toNat = some v → s.memRead a = v)

/-! ### Reset -/

/-- R40: every register reads 0 after reset but for `CRC`, which holds `CRC_INIT_VALUE`, and `BUSY` is 0;
`State.reset` is that state for the spec's parameters. That the unspecified buffer bytes are held as bytes
nothing has written is the model's choice (log entry 1). -/
def Obligations.ResetLeavesTheTabledValues : Prop :=
  State.reset = State.resetWith { crcInit := 0x0000#16, hasAddrUnit := true } ∧
  ∀ p : Params,
    (State.resetWith p).crc = p.crcInit ∧ (State.resetWith p).busy = false ∧
    (∀ a : Addr, a.toNat < 0x080 → a ≠ 0x004#10 → a ≠ 0x005#10 →
      (State.resetWith p).memRead a = 0x00#8) ∧
    (∀ a, Memory.byte? (State.resetWith p).mem a = none)

/-- R165, R166: the reset event falls between two steps, whatever the state is (`BUSY = 1` included) and
leaves exactly the reset state of R40. What the host has still to deliver, what its reads returned and
the counter of resets are the model's own (log entries 1 and 3). -/
def Obligations.ResetEventRestoresTheResetState : Prop :=
  ∀ (s : State) (rest : List HostEvent), s.pending = .reset :: rest →
    step s = .next { State.resetWith s.params with
      pending := rest, returned := s.returned, epoch := s.epoch + 1 }

/-! ### Invariants -/

/-- The invariant holds at reset, for every value of the parameters. -/
def Obligations.ResetStateMeetsTheInvariant : Prop :=
  State.reset.Inv ∧ ∀ p : Params, (State.resetWith p).Inv

/-- Every step keeps the invariant: the buffer memory stays canonical (the form is log entry 1's) and
inside the buffers (R51), `STATUS` holds a code of R150, `BUSY` stays 0 (R18; log entry 5), reserved bits
stay 0 (R18, R35, R52), and without the address unit the fields of its registers stay at reset. R59 says
that those registers do not exist then; that the fields stand at reset is the model's choice (log
entry 9). -/
def Obligations.EveryStepKeepsTheInvariant : Prop :=
  ∀ s t : State, s.Inv → step s = .next t → t.Inv

/-- R5, R53, R167: under the invariant, and while the host delivers only bus transactions, every step
completes: the block never stops. -/
def Obligations.HonestHostIsNeverStopped : Prop :=
  ∀ s : State, s.Inv → s.hostWordsWellFormed → ∃ t, step s = .next t ∧ t.hostWordsWellFormed

/-- R18: `BUSY` reads 0 at every host access in a state the machine reaches; no command and no host write
changes `ENGSTAT`; the reserved bits read 0 in every state; reset value 0. -/
def Obligations.EngstatIsNeverBusyAndNeverWritten : Prop :=
  (∀ s : State, s.Inv → s.memRead 0x003#10 = 0x00#8) ∧
  (∀ s : State, s.memRead 0x003#10 &&& 0xFE#8 = 0x00#8 ∧
    (s.memRead 0x003#10).getLsbD 0 = s.busy) ∧
  (∀ (i : Instr) (s t : State), exec i s = .next t → t.engstat = s.engstat) ∧
  (∀ (s : State) (a : Addr) (v : Byte), (s.memWrite a v).engstat = s.engstat) ∧
  (∀ p : Params, (State.resetWith p).engstat = 0x00#8)

/-! ### Rules about every command -/

/-- R151, R17: every command completes and writes `STATUS` with a code of its own row. -/
def Obligations.EveryCommandReportsACodeOfItsRow : Prop :=
  ∀ (i : Instr) (s : State), ∃ (t : State) (c : Status),
    exec i s = .next t ∧ c ∈ i.mayReport s.params ∧ t.status = c.code

/-- R154, R153: a failing command changes `STATUS`, and the captured checksums if it reached its checksum
step, and nothing else. -/
def Obligations.FailureWritesStatusAndCapturesOnly : Prop :=
  ∀ (i : Instr) (s t : State), exec i s = .next t → t.status ≠ 0x00#8 →
    (i.reachesChecksum s → t = { s.captured with status := t.status }) ∧
    (¬ i.reachesChecksum s → t = { s with status := t.status })

/-- R37, R38: no command reads `STATUS`, `CMD` or anything of the host's side of the bus; its effect on
the rest of the state is the same whatever they hold. -/
def Obligations.CommandsReadNeitherStatusNorHostState : Prop :=
  ∀ (i : Instr) (s t : State) (c x : Byte) (pend : List HostEvent) (ret : List Byte),
    exec i s = .next t →
    exec i { s with cmd := c, status := x, pending := pend, returned := ret } =
      .next { t with cmd := c, pending := pend, returned := ret }

/-- R16, R19-R32, R35, R36: which commands may write which register. -/
def Obligations.RegistersAreWrittenByTheirCommandsOnly : Prop :=
  ∀ (i : Instr) (s t : State), exec i s = .next t →
    (t.cmd = s.cmd ∧ t.engstat = s.engstat ∧ t.crcIn = s.crcIn ∧ t.params = s.params ∧
      t.pending = s.pending ∧ t.returned = s.returned ∧ t.epoch = s.epoch) ∧
    (i ∉ [.crcInit, .crcFeed] → t.crc = s.crc) ∧
    (i ∉ [.crcAppend, .payEncode, .encError, .encInfo, .encQuery, .encWrite, .encEpinfo,
      .encEpquery] → t.flen = s.flen) ∧
    (i ∉ [.crcCompute, .crcAppend, .crcVerify, .encError, .encInfo, .encQuery, .encWrite,
      .encEpinfo, .encEpquery, .decError, .decInfo, .decQuery, .decWrite, .decEpinfo,
      .decEpquery] → t.crcCalc = s.crcCalc) ∧
    (i ∉ [.crcVerify, .decError, .decInfo, .decQuery, .decWrite, .decEpinfo, .decEpquery] →
      t.crcRecv = s.crcRecv) ∧
    (i ∉ [.pktKind, .decError, .decInfo, .decQuery, .decWrite, .decEpinfo, .decEpquery] →
      t.fKind = s.fKind) ∧
    (i ∉ [.decError, .decInfo, .decQuery, .decWrite, .decEpinfo, .decEpquery] →
      t.fFlags = s.fFlags) ∧
    (i ∉ [.decInfo, .decWrite, .decEpinfo] → t.fDtype = s.fDtype ∧ t.pType = s.pType) ∧
    (i ≠ .decError → t.fErrcode = s.fErrcode) ∧
    (i ∉ [.decInfo, .decQuery, .decWrite, .decEpinfo, .decEpquery] → t.fEid = s.fEid) ∧
    (i ∉ [.payDecode, .decInfo, .decWrite, .decEpinfo] → t.pLen = s.pLen) ∧
    (i ∉ [.payDecode, .decInfo, .decWrite] →
      t.pVal = s.pVal ∧ t.dtHour = s.dtHour ∧ t.dtMinute = s.dtMinute ∧
        t.dtSecond = s.dtSecond ∧ t.dtDay = s.dtDay ∧ t.dtMonth = s.dtMonth ∧
        t.dtYear = s.dtYear ∧ t.dtDow = s.dtDow) ∧
    (i ≠ .addrNorm → t.aCtrl = s.aCtrl ∧ t.aPort = s.aPort)

/-- R33, R34, R51, R128: which commands may write which buffer bytes; after its own update of `FLEN` no
command has written an `FBUF` byte at or beyond `FLEN`. -/
def Obligations.BuffersAreWrittenByTheirCommandsOnly : Prop :=
  ∀ (i : Instr) (s t : State), exec i s = .next t →
    (i ∉ [.crcAppend, .payEncode, .encError, .encInfo, .encQuery, .encWrite, .encEpinfo,
      .encEpquery] → ∀ a, 0x100 ≤ a → Memory.byte? t.mem a = Memory.byte? s.mem a) ∧
    (i ∉ [.payDecode, .decInfo, .decWrite, .decEpinfo] →
      ∀ a, a < 0x100 → Memory.byte? t.mem a = Memory.byte? s.mem a) ∧
    (∀ a, a < 0x080 → Memory.byte? t.mem a = Memory.byte? s.mem a) ∧
    (∀ a, 0x100 + t.flen.toNat ≤ a → Memory.byte? t.mem a = Memory.byte? s.mem a)

/-! ### Control and address commands -/

/-- R147: `NOP` (opcode `0x00`) writes `STATUS <- OK` and nothing else; after reset it leaves the reset
state unchanged. -/
def Obligations.NopOnlyReportsSuccess : Prop :=
  decode 0x00#8 = some .nop ∧ (∀ s : State, exec .nop s = .next { s with status := 0x00#8 }) ∧
  exec .nop State.reset = .next State.reset

/-- R146: the default-port rule (opcode `0x30`). A supplied port is kept, 0 included; running it twice
leaves the same state as once; without the unit it is illegal. -/
def Obligations.AddrNormAppliesTheDefaultPort : Prop :=
  decode 0x30#8 = some .addrNorm ∧
  (∀ s : State, s.params.hasAddrUnit = false →
    exec .addrNorm s = .next { s with status := 0x1F#8 }) ∧
  (∀ s : State, s.params.hasAddrUnit = true → s.aCtrl.getLsbD 0 = false →
    exec .addrNorm s =
      .next { s with aPort := 61616#16, aCtrl := s.aCtrl ||| 0x01#8, status := 0x00#8 }) ∧
  (∀ s : State, s.params.hasAddrUnit = true → s.aCtrl.getLsbD 0 = true →
    exec .addrNorm s = .next { s with status := 0x00#8 }) ∧
  (∀ s t : State, exec .addrNorm s = .next t → exec .addrNorm t = .next t)

/-- R59: without the address unit, `0x024`-`0x027` are reserved and `ADDR_NORM` fails with
`IllegalCommand`. -/
def Obligations.AbsentAddressUnitIsReserved : Prop :=
  ∀ s : State, s.params.hasAddrUnit = false →
    (∀ (a : Addr) (v : Byte), 0x024 ≤ a.toNat → a.toNat ≤ 0x027 →
      s.memRead a = 0x00#8 ∧ s.memWrite a v = s) ∧
    exec .addrNorm s = .next { s with status := 0x1F#8 }

/-! ### Checksum Engine -/

/-- R86: one byte step is one XOR into the low 8 bits and exactly 8 conditional shifts. -/
def Obligations.CrcByteIsOneXorAndEightShifts : Prop :=
  (∀ (c : Half) (b : Byte),
    crcByte c b =
      (fun r : Half => if r.getLsbD 0 = true then (r >>> 1) ^^^ 0x8408#16 else r >>> 1)^[8]
        (c ^^^ b.setWidth 16)) ∧
  crcByte 0x0000#16 0x01#8 = 0x1189#16 ∧ crcByte 0x0000#16 0x80#8 = 0x8408#16

/-- R87: the checksum folds the byte step over the sequence in ascending index from `CRC_INIT_VALUE`,
with no swap and no final XOR; the appended big-endian trailer reads back as the checksum. -/
def Obligations.ChecksumFoldsTheByteStep : Prop :=
  (∀ init : Half, checksum init [] = init) ∧
  (∀ (init : Half) (bs : List Byte) (b : Byte),
    checksum init (bs ++ [b]) = crcByte (checksum init bs) b) ∧
  (∀ c : Half, ∃ hi lo : Byte, be16 c = [hi, lo] ∧ hi = c.extractLsb' 8 8 ∧
    lo = c.extractLsb' 0 8 ∧ (ofBe16 hi lo).toNat = hi.toNat * 256 + lo.toNat ∧ ofBe16 hi lo = c) ∧
  checksum 0x0000#16
    [0x31#8, 0x32#8, 0x33#8, 0x34#8, 0x35#8, 0x36#8, 0x37#8, 0x38#8, 0x39#8] = 0x2189#16 ∧
  checksum 0x0000#16 [0x48#8, 0x58#8, 0x30#8, 0x43#8] = 0x7073#16

/-- R88. -/
def Obligations.CrcInitPresetsTheRunningRegister : Prop :=
  decode 0x01#8 = some .crcInit ∧
  ∀ s : State, exec .crcInit s = .next { s with crc := s.params.crcInit, status := 0x00#8 }

/-- R89: `CRC_FEED` advances `CRC` by `CRC_IN`, which stays; so `CRC_INIT` and one feed per byte of a
sequence leave its checksum in `CRC`. -/
def Obligations.CrcFeedStreamsTheChecksum : Prop :=
  decode 0x02#8 = some .crcFeed ∧
  (∀ s : State,
    exec .crcFeed s = .next { s with crc := crcByte s.crc s.crcIn, status := 0x00#8 }) ∧
  (∀ s t : State, exec .crcInit s = .next t → t.crc = checksum t.params.crcInit []) ∧
  (∀ (s t : State) (bs : List Byte), s.crc = checksum s.params.crcInit bs →
    exec .crcFeed s = .next t →
    t.crc = checksum t.params.crcInit (bs ++ [s.crcIn]) ∧ t.crcIn = s.crcIn) ∧
  crcByte 0x0000#16 0x00#8 = 0x0000#16 ∧ crcByte 0x0000#16 0x48#8 = 0xCE4C#16

/-- R90. -/
def Obligations.CrcComputeChecksumsTheFrame : Prop :=
  decode 0x03#8 = some .crcCompute ∧
  ∀ s : State,
    (152 < s.flen.toNat → exec .crcCompute s = .next { s with status := 0x11#8 }) ∧
    (s.flen.toNat ≤ 152 →
      exec .crcCompute s = .next
        { s with
          crcCalc := checksum s.params.crcInit ((List.range s.flen.toNat).map s.fbuf)
          status := 0x00#8 })

/-- R91: `CRC_APPEND` stores the big-endian checksum at `FBUF[FLEN]`; a `CRC_VERIFY` right after it
succeeds. -/
def Obligations.CrcAppendExtendsTheFrame : Prop :=
  decode 0x04#8 = some .crcAppend ∧
  ∀ s : State,
    (152 < s.flen.toNat → exec .crcAppend s = .next { s with status := 0x11#8 }) ∧
    (150 < s.flen.toNat → s.flen.toNat ≤ 152 →
      exec .crcAppend s = .next { s with status := 0x13#8 }) ∧
    (s.flen.toNat ≤ 150 →
      let c := checksum s.params.crcInit ((List.range s.flen.toNat).map s.fbuf)
      ∃ m, exec .crcAppend s = .next
          { s with
            mem := m, flen := s.flen + 2#8, crcCalc := c, status := 0x00#8 } ∧
        Memory.StoresRun s.mem m (0x100 + s.flen.toNat) [c.extractLsb' 8 8, c.extractLsb' 0 8] ∧
        exec .crcVerify
            { s with mem := m, flen := s.flen + 2#8, crcCalc := c, status := 0x00#8 } =
          .next
            { s with
              mem := m, flen := s.flen + 2#8, crcCalc := c, crcRecv := c, status := 0x00#8 })

/-- R92. -/
def Obligations.CrcVerifyComparesAndCaptures : Prop :=
  decode 0x05#8 = some .crcVerify ∧
  ∀ s : State,
    (152 < s.flen.toNat → exec .crcVerify s = .next { s with status := 0x11#8 }) ∧
    (s.flen.toNat < 2 → exec .crcVerify s = .next { s with status := 0x10#8 }) ∧
    (2 ≤ s.flen.toNat → s.flen.toNat ≤ 152 →
      let computed :=
        checksum s.params.crcInit ((List.range (s.flen.toNat - 2)).map s.fbuf)
      let received := ofBe16 (s.fbuf (s.flen.toNat - 2)) (s.fbuf (s.flen.toNat - 1))
      (computed ≠ received →
        exec .crcVerify s = .next
          { s with crcCalc := computed, crcRecv := received, status := 0x02#8 }) ∧
      (computed = received →
        exec .crcVerify s = .next
          { s with crcCalc := computed, crcRecv := received, status := 0x00#8 }))

/-! ### Payload Codec -/

/-- R102: the payload bytes of each tag, or its failure, in the order of the checks. -/
def Obligations.PayloadBytesFollowTheTag : Prop :=
  ∀ (t : Byte) (s : State),
    ((t.toNat = 0 ∨ 9 < t.toNat) → payloadBytes t s = .error .unsupportedPayloadType) ∧
    (t = 0x01#8 → payloadBytes t s = .ok [if s.pVal.getLsbD 0 then 0x01#8 else 0x00#8]) ∧
    (t = 0x02#8 → payloadBytes t s = .ok [s.pVal.extractLsb' 0 8]) ∧
    (t = 0x03#8 ∨ t = 0x05#8 ∨ t = 0x07#8 →
      payloadBytes t s = .ok [s.pVal.extractLsb' 24 8, s.pVal.extractLsb' 16 8,
        s.pVal.extractLsb' 8 8, s.pVal.extractLsb' 0 8]) ∧
    (t = 0x04#8 →
      payloadBytes t s = .ok [s.dtHour, s.dtMinute, s.dtSecond, s.dtDay, s.dtMonth,
        s.dtYear.extractLsb' 8 8, s.dtYear.extractLsb' 0 8, s.dtDow]) ∧
    (t = 0x06#8 →
      (127 < s.pLen.toNat → payloadBytes t s = .error .stringTooLong) ∧
      (s.pLen.toNat ≤ 127 → ∃ bs, payloadBytes t s = .ok bs ∧ bs.length = 128 ∧
        (∀ k, k < s.pLen.toNat → bs[k]? = some (s.pdata k)) ∧
        (∀ k, s.pLen.toNat ≤ k → k < 128 → bs[k]? = some 0x00#8))) ∧
    (t = 0x08#8 →
      (s.pLen.toNat ≠ 65 → payloadBytes t s = .error .byteLengthInvalid) ∧
      (s.pLen.toNat = 65 → payloadBytes t s = .ok ((List.range 65).map s.pdata))) ∧
    (t = 0x09#8 →
      (s.pLen.toNat ≠ 16 → payloadBytes t s = .error .byteLengthInvalid) ∧
      (s.pLen.toNat = 16 → payloadBytes t s = .ok ((List.range 16).map s.pdata)))

/-- R103: an encode reads its variant's value registers and nothing else. -/
def Obligations.PayloadEncodeReadsItsOperandsOnly : Prop :=
  ∀ (t : Byte) (s u : State),
    (t = 0x01#8 ∨ t = 0x02#8 ∨ t = 0x03#8 ∨ t = 0x05#8 ∨ t = 0x07#8 → u.pVal = s.pVal) →
    (t = 0x04#8 →
      u.dtHour = s.dtHour ∧ u.dtMinute = s.dtMinute ∧ u.dtSecond = s.dtSecond ∧
        u.dtDay = s.dtDay ∧ u.dtMonth = s.dtMonth ∧ u.dtYear = s.dtYear ∧ u.dtDow = s.dtDow) →
    (t = 0x06#8 →
      u.pLen = s.pLen ∧ ∀ k, k < s.pLen.toNat → u.pdata k = s.pdata k) →
    (t = 0x08#8 → u.pLen = s.pLen ∧ ∀ k, k ≤ 64 → u.pdata k = s.pdata k) →
    (t = 0x09#8 → u.pLen = s.pLen ∧ ∀ k, k ≤ 15 → u.pdata k = s.pdata k) →
    payloadBytes t u = payloadBytes t s

/-- R105, R106, R93: the register writes of each tag and payload region, or its failure: tag first, then
length, then value. -/
def Obligations.PayloadValueChecksTagLengthValue : Prop :=
  ∀ (t : Byte) (bs : List Byte),
    ((t.toNat = 0 ∨ 9 < t.toNat) → payloadValue t bs = .error .unknownDataType) ∧
    (∀ n, (t.toNat, n) ∈ [(1, 1), (2, 1), (3, 4), (4, 8), (5, 4), (6, 128), (7, 4), (8, 65), (9, 16)] →
      (bs.length ≠ n → payloadValue t bs = .error .byteLengthInvalid)) ∧
    (∀ b, t = 0x01#8 → bs = [b] →
      (b ≠ 0x00#8 → b ≠ 0x01#8 → payloadValue t bs = .error .invalidBoolEncoding) ∧
      (b = 0x00#8 ∨ b = 0x01#8 → payloadValue t bs = .ok (.scalar (b.setWidth 32)))) ∧
    (∀ b, t = 0x02#8 → bs = [b] → payloadValue t bs = .ok (.scalar (b.setWidth 32))) ∧
    (∀ b0 b1 b2 b3, t = 0x03#8 ∨ t = 0x05#8 ∨ t = 0x07#8 → bs = [b0, b1, b2, b3] →
      payloadValue t bs = .ok (.scalar (b0 ++ b1 ++ b2 ++ b3))) ∧
    (∀ b0 b1 b2 b3 b4 b5 b6 b7, t = 0x04#8 → bs = [b0, b1, b2, b3, b4, b5, b6, b7] →
      payloadValue t bs = .ok (.dateTime b0 b1 b2 b3 b4 (b5 ++ b6) b7)) ∧
    (t = 0x06#8 → bs.length = 128 →
      (0x00#8 ∉ bs → payloadValue t bs = .error .stringNotTerminated) ∧
      (∀ k, bs[k]? = some 0x00#8 → (∀ j, j < k → bs[j]? ≠ some 0x00#8) →
        payloadValue t bs = .ok (.content (bs.take k)))) ∧
    (t = 0x08#8 → bs.length = 65 → payloadValue t bs = .ok (.content bs)) ∧
    (t = 0x09#8 → bs.length = 16 → payloadValue t bs = .ok (.content bs))

/-- R105, R107: what performing a decode's writes changes: the variant's registers, and of `P_DATA` the
bytes of the content only. -/
def Obligations.PayloadWritesItsVariantOnly : Prop :=
  ∀ s : State,
    (∀ v, s.perform (.scalar v) = { s with pVal := v }) ∧
    (∀ h mi se d mo y w, s.perform (.dateTime h mi se d mo y w) =
      { s with
        dtHour := h, dtMinute := mi, dtSecond := se, dtDay := d, dtMonth := mo, dtYear := y
        dtDow := w }) ∧
    (∀ bs : List Byte, bs.length ≤ 128 →
      ∃ m, s.perform (.content bs) = { s with mem := m, pLen := BitVec.ofNat 8 bs.length } ∧
        Memory.StoresRun s.mem m 0x080 bs)

/-- R108: `PAY_ENCODE` appends the tag and the payload bytes at `FBUF[FLEN]`; its checks in order. -/
def Obligations.PayEncodeAppendsTagAndBytes : Prop :=
  decode 0x08#8 = some .payEncode ∧
  ∀ s : State,
    (152 < s.flen.toNat → exec .payEncode s = .next { s with status := 0x11#8 }) ∧
    (s.flen.toNat ≤ 152 →
      (∀ c, payloadBytes s.pType s = .error c →
        exec .payEncode s = .next { s with status := c.code }) ∧
      (∀ pb, payloadBytes s.pType s = .ok pb →
        (152 < s.flen.toNat + 1 + pb.length →
          exec .payEncode s = .next { s with status := 0x13#8 }) ∧
        (s.flen.toNat + 1 + pb.length ≤ 152 →
          ∃ m, exec .payEncode s = .next
              { s with
                mem := m, flen := BitVec.ofNat 8 (s.flen.toNat + 1 + pb.length)
                status := 0x00#8 } ∧
            Memory.StoresRun s.mem m (0x100 + s.flen.toNat) (s.pType :: pb))))

/-- R109: `PAY_DECODE` decodes the whole frame with the tag in `P_TYPE`. -/
def Obligations.PayDecodeTakesTheWholeFrame : Prop :=
  decode 0x09#8 = some .payDecode ∧
  ∀ s : State,
    (152 < s.flen.toNat → exec .payDecode s = .next { s with status := 0x11#8 }) ∧
    (s.flen.toNat ≤ 152 →
      (∀ c, payloadValue s.pType ((List.range s.flen.toNat).map s.fbuf) = .error c →
        exec .payDecode s = .next { s with status := c.code }) ∧
      (∀ v, payloadValue s.pType ((List.range s.flen.toNat).map s.fbuf) = .ok v →
        exec .payDecode s = .next { s.perform v with status := 0x00#8 }))

/-- R110: decoding an encoded value gives it back, into whatever state, for the two functions and for the
two commands with the frame moved down past its tag byte. A String128 with an embedded NUL decodes to the
content before it. -/
def Obligations.PayloadRoundTrip : Prop :=
  (∀ (t : Byte) (s : State) (bs : List Byte), payloadBytes t s = .ok bs →
    (t = 0x06#8 → s.contentHasNoNul) →
    ∃ v, payloadValue t bs = .ok v ∧ ∀ u : State, SameValue t s (u.perform v)) ∧
  (∀ (s : State) (bs : List Byte) (j : Nat), payloadBytes 0x06#8 s = .ok bs → j < s.pLen.toNat →
    s.pdata j = 0x00#8 → (∀ i, i < j → s.pdata i ≠ 0x00#8) →
    payloadValue 0x06#8 bs = .ok (.content ((List.range j).map s.pdata))) ∧
  (∀ s t u : State, s.flen = 0x00#8 → exec .payEncode s = .next t → t.status = 0x00#8 →
    (s.pType = 0x06#8 → s.contentHasNoNul) →
    u.pType = s.pType → u.flen.toNat + 1 = t.flen.toNat →
    (∀ k, k < u.flen.toNat → u.fbuf k = t.fbuf (k + 1)) →
    ∃ w, exec .payDecode u = .next w ∧ w.status = 0x00#8 ∧ SameValue s.pType s w)

/-! ### Packet Codec: encoders -/

/-- R127, R128, R131, R134, R137: `ENC_ERROR`, `ENC_QUERY` and `ENC_EPQUERY` never fail and build their
frames from `FBUF[0]` on, whatever `FLEN` held. -/
def Obligations.FixedEncodersBuildTheirFrames : Prop :=
  decode 0x10#8 = some .encError ∧ decode 0x12#8 = some .encQuery ∧
  decode 0x15#8 = some .encEpquery ∧
  ∀ (i : Instr) (s : State) (body : List Byte),
    (i = .encError ∧ body = [0x48#8, 0x58#8, 0x30#8, 0x43#8, 0x00#8, s.fFlags, s.fErrcode]) ∨
      (i = .encQuery ∧ body = [0x48#8, 0x58#8, 0x30#8, 0x43#8, 0x02#8, s.fFlags,
        s.fEid.extractLsb' 24 8, s.fEid.extractLsb' 16 8, s.fEid.extractLsb' 8 8,
        s.fEid.extractLsb' 0 8]) ∨
      (i = .encEpquery ∧ body = [0x48#8, 0x58#8, 0x30#8, 0x43#8, 0x09#8, s.fFlags,
        s.fEid.extractLsb' 24 8, s.fEid.extractLsb' 16 8, s.fEid.extractLsb' 8 8,
        s.fEid.extractLsb' 0 8]) →
    let c := checksum s.params.crcInit body
    ∃ m, exec i s = .next
        { s with
          mem := m, flen := BitVec.ofNat 8 (body.length + 2), crcCalc := c, status := 0x00#8 } ∧
      Memory.StoresRun s.mem m 0x100 (body ++ [c.extractLsb' 8 8, c.extractLsb' 0 8])

/-- R132, R133, R135: `ENC_INFO` and `ENC_WRITE` take the dtype byte and the variant from `P_TYPE`; the
frame has 13 bytes more than the payload, 141 at most. -/
def Obligations.PayloadEncodersBuildTheirFrames : Prop :=
  decode 0x11#8 = some .encInfo ∧ decode 0x13#8 = some .encWrite ∧
  ∀ (i : Instr) (kind : Byte) (s : State),
    (i = .encInfo ∧ kind = 0x01#8) ∨ (i = .encWrite ∧ kind = 0x04#8) →
    (∀ c, payloadBytes s.pType s = .error c → exec i s = .next { s with status := c.code }) ∧
    (∀ pb, payloadBytes s.pType s = .ok pb →
      let body := [0x48#8, 0x58#8, 0x30#8, 0x43#8, kind, s.fFlags, s.fEid.extractLsb' 24 8,
        s.fEid.extractLsb' 16 8, s.fEid.extractLsb' 8 8, s.fEid.extractLsb' 0 8, s.pType] ++ pb
      let c := checksum s.params.crcInit body
      13 + pb.length ≤ 141 ∧
      ∃ m, exec i s = .next
          { s with
            mem := m, flen := BitVec.ofNat 8 (13 + pb.length), crcCalc := c
            status := 0x00#8 } ∧
        Memory.StoresRun s.mem m 0x100 (body ++ [c.extractLsb' 8 8, c.extractLsb' 0 8]))

/-- R136, R104: `ENC_EPINFO` writes `F_DTYPE` at offset 10 and the description as a String128 whatever
`P_TYPE` holds. -/
def Obligations.EncEpinfoBuildsTheDescriptionFrame : Prop :=
  decode 0x14#8 = some .encEpinfo ∧
  ∀ s : State,
    (127 < s.pLen.toNat → exec .encEpinfo s = .next { s with status := 0x06#8 }) ∧
    (s.pLen.toNat ≤ 127 →
      let body := [0x48#8, 0x58#8, 0x30#8, 0x43#8, 0x09#8, s.fFlags, s.fEid.extractLsb' 24 8,
          s.fEid.extractLsb' 16 8, s.fEid.extractLsb' 8 8, s.fEid.extractLsb' 0 8, s.fDtype] ++
        (List.range s.pLen.toNat).map s.pdata ++ [0x00#8] ++
        List.replicate (127 - s.pLen.toNat) 0x00#8
      let c := checksum s.params.crcInit body
      ∃ m, exec .encEpinfo s = .next
          { s with mem := m, flen := 141#8, crcCalc := c, status := 0x00#8 } ∧
        Memory.StoresRun s.mem m 0x100 (body ++ [c.extractLsb' 8 8, c.extractLsb' 0 8]))

/-! ### Packet Codec: decoders -/

/-- R129, R130, R138: `DEC_ERROR`. -/
def Obligations.DecErrorParsesTheFrame : Prop :=
  decode 0x20#8 = some .decError ∧ PrologueFailures .decError 9 0x00#8 ∧
  ∀ s : State, s.passesPrologue 9 0x00#8 →
    (s.flen ≠ 9#8 → exec .decError s = .next { s.captured with status := 0x11#8 }) ∧
    (s.flen = 9#8 →
      exec .decError s = .next
        { s.captured with
          fKind := 0x00#8, fFlags := s.fbuf 5, fErrcode := s.fbuf 6, status := 0x00#8 })

/-- R129, R130, R140, R143: `DEC_QUERY` and `DEC_EPQUERY`. -/
def Obligations.DecQueryAndEpqueryParseTheFrame : Prop :=
  decode 0x22#8 = some .decQuery ∧ decode 0x25#8 = some .decEpquery ∧
  ∀ (i : Instr) (kind : Byte),
    (i = .decQuery ∧ kind = 0x02#8) ∨ (i = .decEpquery ∧ kind = 0x09#8) →
    PrologueFailures i 12 kind ∧
    ∀ s : State, s.passesPrologue 12 kind →
      (s.flen ≠ 12#8 → exec i s = .next { s.captured with status := 0x11#8 }) ∧
      (s.flen = 12#8 →
        exec i s = .next
          { s.captured with
            fKind := kind, fFlags := s.fbuf 5
            fEid := s.fbuf 6 ++ s.fbuf 7 ++ s.fbuf 8 ++ s.fbuf 9
            status := 0x00#8 })

/-- R129, R130, R139, R141: `DEC_INFO` and `DEC_WRITE`: the payload region `FBUF[11 .. n-3]` decoded with
the tag at offset 10. -/
def Obligations.DecInfoAndWriteParseTheFrame : Prop :=
  decode 0x21#8 = some .decInfo ∧ decode 0x23#8 = some .decWrite ∧
  ∀ (i : Instr) (kind : Byte),
    (i = .decInfo ∧ kind = 0x01#8) ∨ (i = .decWrite ∧ kind = 0x04#8) →
    PrologueFailures i 14 kind ∧
    ∀ s : State, s.passesPrologue 14 kind →
      let region := (List.range (s.flen.toNat - 13)).map fun k => s.fbuf (11 + k)
      (∀ c, payloadValue (s.fbuf 10) region = .error c →
        exec i s = .next { s.captured with status := c.code }) ∧
      (∀ v, payloadValue (s.fbuf 10) region = .ok v →
        exec i s = .next
          { s.captured.perform v with
            fKind := kind, fFlags := s.fbuf 5
            fEid := s.fbuf 6 ++ s.fbuf 7 ++ s.fbuf 8 ++ s.fbuf 9
            fDtype := s.fbuf 10, pType := s.fbuf 10, status := 0x00#8 })

/-- R129, R130, R142: `DEC_EPINFO`: always decoded as String128; any dtype byte goes to `F_DTYPE`. -/
def Obligations.DecEpinfoParsesTheDescription : Prop :=
  decode 0x24#8 = some .decEpinfo ∧ PrologueFailures .decEpinfo 141 0x09#8 ∧
  ∀ s : State, s.passesPrologue 141 0x09#8 →
    let region := (List.range (s.flen.toNat - 13)).map fun k => s.fbuf (11 + k)
    (s.flen ≠ 141#8 → exec .decEpinfo s = .next { s.captured with status := 0x08#8 }) ∧
    (s.flen = 141#8 → 0x00#8 ∉ region →
      exec .decEpinfo s = .next { s.captured with status := 0x07#8 }) ∧
    (∀ k, s.flen = 141#8 → region[k]? = some 0x00#8 → (∀ j, j < k → region[j]? ≠ some 0x00#8) →
      ∃ m, exec .decEpinfo s = .next
          { s.captured with
            mem := m, pLen := BitVec.ofNat 8 k, pType := 0x06#8
            fKind := 0x09#8, fFlags := s.fbuf 5
            fEid := s.fbuf 6 ++ s.fbuf 7 ++ s.fbuf 8 ++ s.fbuf 9
            fDtype := s.fbuf 10, status := 0x00#8 } ∧
        Memory.StoresRun s.mem m 0x080 (region.take k))

/-- R144: `PKT_KIND` looks at byte 4 only. -/
def Obligations.PktKindReportsTheKindByte : Prop :=
  decode 0x0F#8 = some .pktKind ∧
  ∀ s : State,
    (152 < s.flen.toNat → exec .pktKind s = .next { s with status := 0x11#8 }) ∧
    (s.flen.toNat < 5 → exec .pktKind s = .next { s with status := 0x10#8 }) ∧
    (5 ≤ s.flen.toNat → s.flen.toNat ≤ 152 →
      (s.fbuf 4 ∉ [0x00#8, 0x01#8, 0x02#8, 0x04#8, 0x09#8] →
        exec .pktKind s = .next { s with status := 0x03#8 }) ∧
      (s.fbuf 4 ∈ [0x00#8, 0x01#8, 0x02#8, 0x04#8, 0x09#8] →
        exec .pktKind s = .next { s with fKind := s.fbuf 4, status := 0x00#8 }))

/-! ### Packet Codec: properties -/

/-- R145, round trip of the shapes without a payload: the decoder accepts the encoder's frame and writes
back the fields the encoder read. -/
def Obligations.FixedShapesRoundTrip : Prop :=
  (∀ s t : State, exec .encError s = .next t →
    exec .decError t = .next { t with fKind := 0x00#8, crcRecv := t.crcCalc } ∧
      t.fFlags = s.fFlags ∧ t.fErrcode = s.fErrcode) ∧
  (∀ s t : State, exec .encQuery s = .next t →
    exec .decQuery t = .next { t with fKind := 0x02#8, crcRecv := t.crcCalc } ∧
      t.fFlags = s.fFlags ∧ t.fEid = s.fEid) ∧
  (∀ s t : State, exec .encEpquery s = .next t →
    exec .decEpquery t = .next { t with fKind := 0x09#8, crcRecv := t.crcCalc } ∧
      t.fFlags = s.fFlags ∧ t.fEid = s.fEid)

/-- R145, R110, round trip of Info, Write and EndpointInfo, with the NUL proviso. -/
def Obligations.PayloadShapesRoundTrip : Prop :=
  (∀ (e d : Instr) (kind : Byte) (s t : State),
    (e = .encInfo ∧ d = .decInfo ∧ kind = 0x01#8) ∨
      (e = .encWrite ∧ d = .decWrite ∧ kind = 0x04#8) →
    exec e s = .next t → t.status = 0x00#8 → (s.pType = 0x06#8 → s.contentHasNoNul) →
    ∃ u, exec d t = .next u ∧ u.status = 0x00#8 ∧ u.fKind = kind ∧ u.fFlags = s.fFlags ∧
      u.fEid = s.fEid ∧ u.pType = s.pType ∧ u.fDtype = s.pType ∧ SameValue s.pType s u) ∧
  (∀ s t : State, exec .encEpinfo s = .next t → t.status = 0x00#8 → s.contentHasNoNul →
    ∃ u, exec .decEpinfo t = .next u ∧ u.status = 0x00#8 ∧ u.fKind = 0x09#8 ∧
      u.fFlags = s.fFlags ∧ u.fEid = s.fEid ∧ u.fDtype = s.fDtype ∧ u.pType = 0x06#8 ∧
      SameValue 0x06#8 s u)

/-- R145, R130: flip any one bit of a frame a decode command accepts. In bytes 0-3 it gives
`MalformedHeader`; in any other byte, the trailer included, it gives `ChecksumMismatch`. -/
def Obligations.SingleBitCorruptionIsDetected : Prop :=
  ∀ (i : Instr) (s t : State) (k j : Nat),
    i ∈ [Instr.decError, .decInfo, .decQuery, .decWrite, .decEpinfo, .decEpquery] →
    exec i s = .next t → t.status = 0x00#8 → k < s.flen.toNat → j < 8 →
    ∃ u, exec i (s.writeFbuf k [s.fbuf k ^^^ (1#8 <<< j)]) = .next u ∧
      u.status = if k < 4 then 0x01#8 else 0x02#8
end

