-- ==== Sys2Proof/Laws/State.lean ====
section
/-! SUPPORT. The fields of a state after each shared update, one lemma per field and update, all by `rfl`:
no later proof unfolds a record update. -/

namespace Sys2Proof.Machine

variable (s : State)

/-! ### `State.fail` -/

@[simp] theorem State.fail_cmd (c : Status) : (s.fail c).cmd = s.cmd := rfl
@[simp] theorem State.fail_status (c : Status) : (s.fail c).status = c.code := rfl
@[simp] theorem State.fail_engstat (c : Status) : (s.fail c).engstat = s.engstat := rfl
@[simp] theorem State.fail_flen (c : Status) : (s.fail c).flen = s.flen := rfl
@[simp] theorem State.fail_crc (c : Status) : (s.fail c).crc = s.crc := rfl
@[simp] theorem State.fail_crcCalc (c : Status) : (s.fail c).crcCalc = s.crcCalc := rfl
@[simp] theorem State.fail_crcRecv (c : Status) : (s.fail c).crcRecv = s.crcRecv := rfl
@[simp] theorem State.fail_crcIn (c : Status) : (s.fail c).crcIn = s.crcIn := rfl
@[simp] theorem State.fail_fKind (c : Status) : (s.fail c).fKind = s.fKind := rfl
@[simp] theorem State.fail_fFlags (c : Status) : (s.fail c).fFlags = s.fFlags := rfl
@[simp] theorem State.fail_fDtype (c : Status) : (s.fail c).fDtype = s.fDtype := rfl
@[simp] theorem State.fail_fErrcode (c : Status) : (s.fail c).fErrcode = s.fErrcode := rfl
@[simp] theorem State.fail_fEid (c : Status) : (s.fail c).fEid = s.fEid := rfl
@[simp] theorem State.fail_pType (c : Status) : (s.fail c).pType = s.pType := rfl
@[simp] theorem State.fail_pLen (c : Status) : (s.fail c).pLen = s.pLen := rfl
@[simp] theorem State.fail_pVal (c : Status) : (s.fail c).pVal = s.pVal := rfl
@[simp] theorem State.fail_dtHour (c : Status) : (s.fail c).dtHour = s.dtHour := rfl
@[simp] theorem State.fail_dtMinute (c : Status) : (s.fail c).dtMinute = s.dtMinute := rfl
@[simp] theorem State.fail_dtSecond (c : Status) : (s.fail c).dtSecond = s.dtSecond := rfl
@[simp] theorem State.fail_dtDay (c : Status) : (s.fail c).dtDay = s.dtDay := rfl
@[simp] theorem State.fail_dtMonth (c : Status) : (s.fail c).dtMonth = s.dtMonth := rfl
@[simp] theorem State.fail_dtDow (c : Status) : (s.fail c).dtDow = s.dtDow := rfl
@[simp] theorem State.fail_dtYear (c : Status) : (s.fail c).dtYear = s.dtYear := rfl
@[simp] theorem State.fail_aCtrl (c : Status) : (s.fail c).aCtrl = s.aCtrl := rfl
@[simp] theorem State.fail_aPort (c : Status) : (s.fail c).aPort = s.aPort := rfl
@[simp] theorem State.fail_mem (c : Status) : (s.fail c).mem = s.mem := rfl
@[simp] theorem State.fail_params (c : Status) : (s.fail c).params = s.params := rfl
@[simp] theorem State.fail_pending (c : Status) : (s.fail c).pending = s.pending := rfl
@[simp] theorem State.fail_returned (c : Status) : (s.fail c).returned = s.returned := rfl
@[simp] theorem State.fail_epoch (c : Status) : (s.fail c).epoch = s.epoch := rfl

/-! ### `State.commit` -/

@[simp] theorem State.commit_cmd : s.commit.cmd = s.cmd := rfl
@[simp] theorem State.commit_status : s.commit.status = Status.ok.code := rfl
@[simp] theorem State.commit_engstat : s.commit.engstat = s.engstat := rfl
@[simp] theorem State.commit_flen : s.commit.flen = s.flen := rfl
@[simp] theorem State.commit_crc : s.commit.crc = s.crc := rfl
@[simp] theorem State.commit_crcCalc : s.commit.crcCalc = s.crcCalc := rfl
@[simp] theorem State.commit_crcRecv : s.commit.crcRecv = s.crcRecv := rfl
@[simp] theorem State.commit_crcIn : s.commit.crcIn = s.crcIn := rfl
@[simp] theorem State.commit_fKind : s.commit.fKind = s.fKind := rfl
@[simp] theorem State.commit_fFlags : s.commit.fFlags = s.fFlags := rfl
@[simp] theorem State.commit_fDtype : s.commit.fDtype = s.fDtype := rfl
@[simp] theorem State.commit_fErrcode : s.commit.fErrcode = s.fErrcode := rfl
@[simp] theorem State.commit_fEid : s.commit.fEid = s.fEid := rfl
@[simp] theorem State.commit_pType : s.commit.pType = s.pType := rfl
@[simp] theorem State.commit_pLen : s.commit.pLen = s.pLen := rfl
@[simp] theorem State.commit_pVal : s.commit.pVal = s.pVal := rfl
@[simp] theorem State.commit_dtHour : s.commit.dtHour = s.dtHour := rfl
@[simp] theorem State.commit_dtMinute : s.commit.dtMinute = s.dtMinute := rfl
@[simp] theorem State.commit_dtSecond : s.commit.dtSecond = s.dtSecond := rfl
@[simp] theorem State.commit_dtDay : s.commit.dtDay = s.dtDay := rfl
@[simp] theorem State.commit_dtMonth : s.commit.dtMonth = s.dtMonth := rfl
@[simp] theorem State.commit_dtDow : s.commit.dtDow = s.dtDow := rfl
@[simp] theorem State.commit_dtYear : s.commit.dtYear = s.dtYear := rfl
@[simp] theorem State.commit_aCtrl : s.commit.aCtrl = s.aCtrl := rfl
@[simp] theorem State.commit_aPort : s.commit.aPort = s.aPort := rfl
@[simp] theorem State.commit_mem : s.commit.mem = s.mem := rfl
@[simp] theorem State.commit_params : s.commit.params = s.params := rfl
@[simp] theorem State.commit_pending : s.commit.pending = s.pending := rfl
@[simp] theorem State.commit_returned : s.commit.returned = s.returned := rfl
@[simp] theorem State.commit_epoch : s.commit.epoch = s.epoch := rfl

/-! ### `State.capture` -/

@[simp] theorem State.capture_cmd (a b : Half) : (s.capture a b).cmd = s.cmd := rfl
@[simp] theorem State.capture_status (a b : Half) : (s.capture a b).status = s.status := rfl
@[simp] theorem State.capture_engstat (a b : Half) : (s.capture a b).engstat = s.engstat := rfl
@[simp] theorem State.capture_flen (a b : Half) : (s.capture a b).flen = s.flen := rfl
@[simp] theorem State.capture_crc (a b : Half) : (s.capture a b).crc = s.crc := rfl
@[simp] theorem State.capture_crcCalc (a b : Half) : (s.capture a b).crcCalc = a := rfl
@[simp] theorem State.capture_crcRecv (a b : Half) : (s.capture a b).crcRecv = b := rfl
@[simp] theorem State.capture_crcIn (a b : Half) : (s.capture a b).crcIn = s.crcIn := rfl
@[simp] theorem State.capture_fKind (a b : Half) : (s.capture a b).fKind = s.fKind := rfl
@[simp] theorem State.capture_fFlags (a b : Half) : (s.capture a b).fFlags = s.fFlags := rfl
@[simp] theorem State.capture_fDtype (a b : Half) : (s.capture a b).fDtype = s.fDtype := rfl
@[simp] theorem State.capture_fErrcode (a b : Half) : (s.capture a b).fErrcode = s.fErrcode := rfl
@[simp] theorem State.capture_fEid (a b : Half) : (s.capture a b).fEid = s.fEid := rfl
@[simp] theorem State.capture_pType (a b : Half) : (s.capture a b).pType = s.pType := rfl
@[simp] theorem State.capture_pLen (a b : Half) : (s.capture a b).pLen = s.pLen := rfl
@[simp] theorem State.capture_pVal (a b : Half) : (s.capture a b).pVal = s.pVal := rfl
@[simp] theorem State.capture_dtHour (a b : Half) : (s.capture a b).dtHour = s.dtHour := rfl
@[simp] theorem State.capture_dtMinute (a b : Half) : (s.capture a b).dtMinute = s.dtMinute := rfl
@[simp] theorem State.capture_dtSecond (a b : Half) : (s.capture a b).dtSecond = s.dtSecond := rfl
@[simp] theorem State.capture_dtDay (a b : Half) : (s.capture a b).dtDay = s.dtDay := rfl
@[simp] theorem State.capture_dtMonth (a b : Half) : (s.capture a b).dtMonth = s.dtMonth := rfl
@[simp] theorem State.capture_dtDow (a b : Half) : (s.capture a b).dtDow = s.dtDow := rfl
@[simp] theorem State.capture_dtYear (a b : Half) : (s.capture a b).dtYear = s.dtYear := rfl
@[simp] theorem State.capture_aCtrl (a b : Half) : (s.capture a b).aCtrl = s.aCtrl := rfl
@[simp] theorem State.capture_aPort (a b : Half) : (s.capture a b).aPort = s.aPort := rfl
@[simp] theorem State.capture_mem (a b : Half) : (s.capture a b).mem = s.mem := rfl
@[simp] theorem State.capture_params (a b : Half) : (s.capture a b).params = s.params := rfl
@[simp] theorem State.capture_pending (a b : Half) : (s.capture a b).pending = s.pending := rfl
@[simp] theorem State.capture_returned (a b : Half) : (s.capture a b).returned = s.returned := rfl
@[simp] theorem State.capture_epoch (a b : Half) : (s.capture a b).epoch = s.epoch := rfl

/-! ### `State.writeFbuf` -/

@[simp] theorem State.writeFbuf_cmd (i : Nat) (bs : List Byte) : (s.writeFbuf i bs).cmd = s.cmd := rfl
@[simp] theorem State.writeFbuf_status (i : Nat) (bs : List Byte) : (s.writeFbuf i bs).status = s.status := rfl
@[simp] theorem State.writeFbuf_engstat (i : Nat) (bs : List Byte) : (s.writeFbuf i bs).engstat = s.engstat := rfl
@[simp] theorem State.writeFbuf_flen (i : Nat) (bs : List Byte) : (s.writeFbuf i bs).flen = s.flen := rfl
@[simp] theorem State.writeFbuf_crc (i : Nat) (bs : List Byte) : (s.writeFbuf i bs).crc = s.crc := rfl
@[simp] theorem State.writeFbuf_crcCalc (i : Nat) (bs : List Byte) : (s.writeFbuf i bs).crcCalc = s.crcCalc := rfl
@[simp] theorem State.writeFbuf_crcRecv (i : Nat) (bs : List Byte) : (s.writeFbuf i bs).crcRecv = s.crcRecv := rfl
@[simp] theorem State.writeFbuf_crcIn (i : Nat) (bs : List Byte) : (s.writeFbuf i bs).crcIn = s.crcIn := rfl
@[simp] theorem State.writeFbuf_fKind (i : Nat) (bs : List Byte) : (s.writeFbuf i bs).fKind = s.fKind := rfl
@[simp] theorem State.writeFbuf_fFlags (i : Nat) (bs : List Byte) : (s.writeFbuf i bs).fFlags = s.fFlags := rfl
@[simp] theorem State.writeFbuf_fDtype (i : Nat) (bs : List Byte) : (s.writeFbuf i bs).fDtype = s.fDtype := rfl
@[simp] theorem State.writeFbuf_fErrcode (i : Nat) (bs : List Byte) : (s.writeFbuf i bs).fErrcode = s.fErrcode := rfl
@[simp] theorem State.writeFbuf_fEid (i : Nat) (bs : List Byte) : (s.writeFbuf i bs).fEid = s.fEid := rfl
@[simp] theorem State.writeFbuf_pType (i : Nat) (bs : List Byte) : (s.writeFbuf i bs).pType = s.pType := rfl
@[simp] theorem State.writeFbuf_pLen (i : Nat) (bs : List Byte) : (s.writeFbuf i bs).pLen = s.pLen := rfl
@[simp] theorem State.writeFbuf_pVal (i : Nat) (bs : List Byte) : (s.writeFbuf i bs).pVal = s.pVal := rfl
@[simp] theorem State.writeFbuf_dtHour (i : Nat) (bs : List Byte) : (s.writeFbuf i bs).dtHour = s.dtHour := rfl
@[simp] theorem State.writeFbuf_dtMinute (i : Nat) (bs : List Byte) : (s.writeFbuf i bs).dtMinute = s.dtMinute := rfl
@[simp] theorem State.writeFbuf_dtSecond (i : Nat) (bs : List Byte) : (s.writeFbuf i bs).dtSecond = s.dtSecond := rfl
@[simp] theorem State.writeFbuf_dtDay (i : Nat) (bs : List Byte) : (s.writeFbuf i bs).dtDay = s.dtDay := rfl
@[simp] theorem State.writeFbuf_dtMonth (i : Nat) (bs : List Byte) : (s.writeFbuf i bs).dtMonth = s.dtMonth := rfl
@[simp] theorem State.writeFbuf_dtDow (i : Nat) (bs : List Byte) : (s.writeFbuf i bs).dtDow = s.dtDow := rfl
@[simp] theorem State.writeFbuf_dtYear (i : Nat) (bs : List Byte) : (s.writeFbuf i bs).dtYear = s.dtYear := rfl
@[simp] theorem State.writeFbuf_aCtrl (i : Nat) (bs : List Byte) : (s.writeFbuf i bs).aCtrl = s.aCtrl := rfl
@[simp] theorem State.writeFbuf_aPort (i : Nat) (bs : List Byte) : (s.writeFbuf i bs).aPort = s.aPort := rfl
@[simp] theorem State.writeFbuf_mem (i : Nat) (bs : List Byte) : (s.writeFbuf i bs).mem = Memory.storeRun s.mem (fbufBase + i) bs := rfl
@[simp] theorem State.writeFbuf_params (i : Nat) (bs : List Byte) : (s.writeFbuf i bs).params = s.params := rfl
@[simp] theorem State.writeFbuf_pending (i : Nat) (bs : List Byte) : (s.writeFbuf i bs).pending = s.pending := rfl
@[simp] theorem State.writeFbuf_returned (i : Nat) (bs : List Byte) : (s.writeFbuf i bs).returned = s.returned := rfl
@[simp] theorem State.writeFbuf_epoch (i : Nat) (bs : List Byte) : (s.writeFbuf i bs).epoch = s.epoch := rfl

/-! ### `State.writePdata` -/

@[simp] theorem State.writePdata_cmd (i : Nat) (bs : List Byte) : (s.writePdata i bs).cmd = s.cmd := rfl
@[simp] theorem State.writePdata_status (i : Nat) (bs : List Byte) : (s.writePdata i bs).status = s.status := rfl
@[simp] theorem State.writePdata_engstat (i : Nat) (bs : List Byte) : (s.writePdata i bs).engstat = s.engstat := rfl
@[simp] theorem State.writePdata_flen (i : Nat) (bs : List Byte) : (s.writePdata i bs).flen = s.flen := rfl
@[simp] theorem State.writePdata_crc (i : Nat) (bs : List Byte) : (s.writePdata i bs).crc = s.crc := rfl
@[simp] theorem State.writePdata_crcCalc (i : Nat) (bs : List Byte) : (s.writePdata i bs).crcCalc = s.crcCalc := rfl
@[simp] theorem State.writePdata_crcRecv (i : Nat) (bs : List Byte) : (s.writePdata i bs).crcRecv = s.crcRecv := rfl
@[simp] theorem State.writePdata_crcIn (i : Nat) (bs : List Byte) : (s.writePdata i bs).crcIn = s.crcIn := rfl
@[simp] theorem State.writePdata_fKind (i : Nat) (bs : List Byte) : (s.writePdata i bs).fKind = s.fKind := rfl
@[simp] theorem State.writePdata_fFlags (i : Nat) (bs : List Byte) : (s.writePdata i bs).fFlags = s.fFlags := rfl
@[simp] theorem State.writePdata_fDtype (i : Nat) (bs : List Byte) : (s.writePdata i bs).fDtype = s.fDtype := rfl
@[simp] theorem State.writePdata_fErrcode (i : Nat) (bs : List Byte) : (s.writePdata i bs).fErrcode = s.fErrcode := rfl
@[simp] theorem State.writePdata_fEid (i : Nat) (bs : List Byte) : (s.writePdata i bs).fEid = s.fEid := rfl
@[simp] theorem State.writePdata_pType (i : Nat) (bs : List Byte) : (s.writePdata i bs).pType = s.pType := rfl
@[simp] theorem State.writePdata_pLen (i : Nat) (bs : List Byte) : (s.writePdata i bs).pLen = s.pLen := rfl
@[simp] theorem State.writePdata_pVal (i : Nat) (bs : List Byte) : (s.writePdata i bs).pVal = s.pVal := rfl
@[simp] theorem State.writePdata_dtHour (i : Nat) (bs : List Byte) : (s.writePdata i bs).dtHour = s.dtHour := rfl
@[simp] theorem State.writePdata_dtMinute (i : Nat) (bs : List Byte) : (s.writePdata i bs).dtMinute = s.dtMinute := rfl
@[simp] theorem State.writePdata_dtSecond (i : Nat) (bs : List Byte) : (s.writePdata i bs).dtSecond = s.dtSecond := rfl
@[simp] theorem State.writePdata_dtDay (i : Nat) (bs : List Byte) : (s.writePdata i bs).dtDay = s.dtDay := rfl
@[simp] theorem State.writePdata_dtMonth (i : Nat) (bs : List Byte) : (s.writePdata i bs).dtMonth = s.dtMonth := rfl
@[simp] theorem State.writePdata_dtDow (i : Nat) (bs : List Byte) : (s.writePdata i bs).dtDow = s.dtDow := rfl
@[simp] theorem State.writePdata_dtYear (i : Nat) (bs : List Byte) : (s.writePdata i bs).dtYear = s.dtYear := rfl
@[simp] theorem State.writePdata_aCtrl (i : Nat) (bs : List Byte) : (s.writePdata i bs).aCtrl = s.aCtrl := rfl
@[simp] theorem State.writePdata_aPort (i : Nat) (bs : List Byte) : (s.writePdata i bs).aPort = s.aPort := rfl
@[simp] theorem State.writePdata_mem (i : Nat) (bs : List Byte) : (s.writePdata i bs).mem = Memory.storeRun s.mem (pdataBase + i) bs := rfl
@[simp] theorem State.writePdata_params (i : Nat) (bs : List Byte) : (s.writePdata i bs).params = s.params := rfl
@[simp] theorem State.writePdata_pending (i : Nat) (bs : List Byte) : (s.writePdata i bs).pending = s.pending := rfl
@[simp] theorem State.writePdata_returned (i : Nat) (bs : List Byte) : (s.writePdata i bs).returned = s.returned := rfl
@[simp] theorem State.writePdata_epoch (i : Nat) (bs : List Byte) : (s.writePdata i bs).epoch = s.epoch := rfl

/-! ### `State.resetEvent` -/

@[simp] theorem State.resetEvent_params : s.resetEvent.params = s.params := rfl
@[simp] theorem State.resetEvent_pending : s.resetEvent.pending = s.pending := rfl
@[simp] theorem State.resetEvent_returned : s.resetEvent.returned = s.returned := rfl
@[simp] theorem State.resetEvent_epoch : s.resetEvent.epoch = s.epoch + 1 := rfl
@[simp] theorem State.resetEvent_mem : s.resetEvent.mem = [] := rfl
@[simp] theorem State.resetEvent_engstat : s.resetEvent.engstat = 0x00#8 := rfl
@[simp] theorem State.resetEvent_status : s.resetEvent.status = 0x00#8 := rfl
@[simp] theorem State.resetEvent_aCtrl : s.resetEvent.aCtrl = 0x00#8 := rfl
@[simp] theorem State.resetEvent_aPort : s.resetEvent.aPort = 0x0000#16 := rfl
@[simp] theorem State.resetEvent_flen : s.resetEvent.flen = 0x00#8 := rfl
@[simp] theorem State.resetEvent_crc : s.resetEvent.crc = s.params.crcInit := rfl

end Sys2Proof.Machine
end

