-- ==== Sys2Proof/Laws/Checksum.lean ====
section
/-! SUPPORT. Byte order and the checksum: the trailer reads back, the fold over a sequence, and the byte
step told apart by its two arguments. -/

namespace Sys2Proof.Machine

/-! ### Byte order -/

@[simp] theorem length_be16 (v : Half) : (be16 v).length = 2 := rfl

@[simp] theorem length_be32 (v : Word) : (be32 v).length = 4 := rfl

@[simp] theorem ofBe16_extract (v : Half) :
    ofBe16 (v.extractLsb' 8 8) (v.extractLsb' 0 8) = v := by
  apply BitVec.eq_of_getLsbD_eq
  intro i hi
  simp only [ofBe16, BitVec.getLsbD_append, BitVec.getLsbD_extractLsb']
  by_cases h : i < 8
  · simp [h]
  · have h2 : i - 8 < 8 := by omega
    have h3 : 8 + (i - 8) = i := by omega
    simp [h, h2, h3]

@[simp] theorem ofBe32_extract (v : Word) :
    ofBe32 (v.extractLsb' 24 8) (v.extractLsb' 16 8) (v.extractLsb' 8 8) (v.extractLsb' 0 8) = v := by
  apply BitVec.eq_of_getLsbD_eq
  intro i hi
  simp only [ofBe32, BitVec.getLsbD_append, BitVec.getLsbD_extractLsb']
  by_cases h : i < 8
  · simp [h]
  · by_cases h' : i - 8 < 8
    · have : 8 + (i - 8) = i := by omega
      simp [h, h', this]
    · by_cases h'' : i - 8 - 8 < 8
      · have : 16 + (i - 8 - 8) = i := by omega
        simp [h, h', h'', this]
      · have h3 : i - 8 - 8 - 8 < 8 := by omega
        have : 24 + (i - 8 - 8 - 8) = i := by omega
        simp [h, h', h'', h3, this]

theorem be16_ofBe16 (a b : Byte) : be16 (ofBe16 a b) = [a, b] := by
  have h1 : (ofBe16 a b).extractLsb' 8 8 = a := by
    apply BitVec.eq_of_getLsbD_eq
    intro i hi
    have h : ¬ 8 + i < 8 := by omega
    have h' : 8 + i - 8 = i := by omega
    simp only [ofBe16, BitVec.getLsbD_extractLsb', BitVec.getLsbD_append, h, h', hi]
    simp
  have h2 : (ofBe16 a b).extractLsb' 0 8 = b := by
    apply BitVec.eq_of_getLsbD_eq
    intro i hi
    simp only [ofBe16, BitVec.getLsbD_extractLsb', BitVec.getLsbD_append, Nat.zero_add, hi]
    simp
  simp [be16, h1, h2]

/-! ### The fold -/

@[simp] theorem checksum_nil (init : Half) : checksum init [] = init := rfl

theorem checksum_append (init : Half) (as bs : List Byte) :
    checksum init (as ++ bs) = checksum (checksum init as) bs := by
  simp [checksum]

theorem checksum_concat (init : Half) (bs : List Byte) (b : Byte) :
    checksum init (bs ++ [b]) = crcByte (checksum init bs) b := by
  simp [checksum]

/-! ### The byte step tells its arguments apart -/

theorem crcShift_injective {c d : Half} (h : crcShift c = crcShift d) : c = d := by
  have key : ∀ (c : Half) (i : Nat), i < 16 →
      (crcShift c).getLsbD i = (c.getLsbD (i + 1) ^^ (c.getLsbD 0 && Config.crcPoly.getLsbD i)) := by
    intro c i hi
    unfold crcShift
    split
    case isTrue hc => simp only [BitVec.getLsbD_xor, BitVec.getLsbD_ushiftRight, hc, Nat.add_comm 1 i, Bool.true_and]
    case isFalse hc =>
      simp only [BitVec.getLsbD_ushiftRight, Nat.add_comm 1 i, Bool.not_eq_true] at hc ⊢
      simp only [hc, Bool.false_and, Bool.xor_false]
  have h0 : c.getLsbD 0 = d.getLsbD 0 := by
    have a := key c 15 (by omega)
    have b := key d 15 (by omega)
    have e : Config.crcPoly.getLsbD 15 = true := by decide
    rw [h] at a
    rw [a, e] at b
    simpa using b
  apply BitVec.eq_of_getLsbD_eq
  intro i hi
  cases i with
  | zero => exact h0
  | succ i =>
    have a := key c i (by omega)
    have b := key d i (by omega)
    rw [h, b, h0] at a
    simpa using a.symm

theorem crcShifts_injective (n : Nat) {c d : Half} (h : crcShifts n c = crcShifts n d) : c = d := by
  induction n generalizing c d with
  | zero => exact h
  | succ n ih => exact crcShift_injective (ih h)

/-- Two running registers that differ still differ after the same byte. -/
theorem crcByte_injective {c d : Half} {b : Byte} (h : crcByte c b = crcByte d b) : c = d := by
  have := crcShifts_injective 8 h
  simpa using congrArg (· ^^^ b.setWidth 16) this

/-- Two different bytes leave different running registers. -/
theorem crcByte_byte_injective {c : Half} {a b : Byte} (h : crcByte c a = crcByte c b) : a = b := by
  have h' := crcShifts_injective 8 h
  have : a.setWidth 16 = b.setWidth 16 := by
    have := congrArg (c ^^^ ·) h'
    simpa [← BitVec.xor_assoc] using this
  have := congrArg (BitVec.setWidth 8) this
  simpa using this

/-- Two running registers that differ still differ after the same bytes. -/
theorem checksum_init_injective {c d : Half} {bs : List Byte}
    (h : checksum c bs = checksum d bs) : c = d := by
  induction bs generalizing c d with
  | nil => exact h
  | cons b bs ih => exact crcByte_injective (ih h)

/-- Sequences that differ in one byte have different checksums. -/
theorem checksum_set_ne {init : Half} {bs : List Byte} {k : Nat} {v : Byte} (hk : k < bs.length)
    (hv : v ≠ bs[k]) : checksum init (bs.set k v) ≠ checksum init bs := by
  intro h
  have e : bs = bs.take k ++ bs[k] :: bs.drop (k + 1) := by simp
  have e' : bs.set k v = bs.take k ++ v :: bs.drop (k + 1) := by
    rw [List.set_eq_take_append_cons_drop, if_pos hk]
  rw [e'] at h
  conv at h => rhs; rw [e]
  rw [checksum_append, checksum_append] at h
  exact hv (crcByte_byte_injective (checksum_init_injective (bs := bs.drop (k + 1)) h))

end Sys2Proof.Machine
end

