-- ==== Sys2Proof/Laws/Memory.lean ====
section
/-! SUPPORT. The buffer memory: read over write, the canonical form, and the buffers' bytes. -/

namespace Sys2Proof.Machine

/-! ### One byte -/

@[simp] theorem Memory.byte?_nil (a : Nat) : Memory.byte? [] a = none := rfl

theorem Memory.byte?_store (m : Memory) (a x : Nat) (v : Byte) :
    Memory.byte? (Memory.store m a v) x = if x = a then some v else Memory.byte? m x := by
  induction m with
  | nil => simp [Memory.store, Memory.byte?]
  | cons c m ih =>
    obtain ⟨b, w⟩ := c
    rcases Nat.lt_trichotomy a b with h | h | h
    · simp [Memory.store, Memory.byte?, h]
    · subst h
      by_cases hx : x = a <;> simp [Memory.store, Memory.byte?, hx]
    · have h1 : ¬ a < b := by omega
      have h2 : a ≠ b := by omega
      simp only [Memory.store, h1, h2, if_false, Memory.byte?, ih]
      by_cases hx : x = b
      · have : x ≠ a := by omega
        simp [hx, h2.symm]
      · simp [hx]

/-- Writing the same byte twice is writing it once. -/
theorem Memory.store_store (m : Memory) (a : Nat) (v : Byte) :
    Memory.store (Memory.store m a v) a v = Memory.store m a v := by
  induction m with
  | nil => simp [Memory.store]
  | cons c m ih =>
    obtain ⟨b, w⟩ := c
    rcases Nat.lt_trichotomy a b with h | h | h
    · simp [Memory.store, h]
    · simp [Memory.store, h]
    · have h1 : ¬ a < b := by omega
      have h2 : a ≠ b := by omega
      simp [Memory.store, h1, h2, ih]

theorem Memory.mem_store {m : Memory} {a : Nat} {v : Byte} {c : Host.Cell}
    (h : c ∈ Memory.store m a v) : c = (a, v) ∨ c ∈ m := by
  induction m with
  | nil => simpa [Memory.store] using h
  | cons d m ih =>
    obtain ⟨b, w⟩ := d
    simp only [Memory.store] at h
    split at h
    · simpa using h
    · split at h
      · rcases List.mem_cons.1 h with h | h <;> simp [h]
      · rcases List.mem_cons.1 h with h | h
        · simp [h]
        · rcases ih h with h | h <;> simp [h]

/-- Every write to a buffer address keeps the canonical form. -/
theorem Memory.wf_store {m : Memory} {a : Nat} (v : Byte) (h : Memory.wf m)
    (lo : pdataBase ≤ a) (hi : a < fbufBase + Config.fbufSize) : Memory.wf (Memory.store m a v) := by
  refine ⟨?_, fun c hc => ?_⟩
  · have hp := h.1
    clear h
    induction m with
    | nil => simp [Memory.store]
    | cons d m ih =>
      obtain ⟨b, w⟩ := d
      obtain ⟨hb, hm⟩ := List.pairwise_cons.1 hp
      simp only [Memory.store]
      split
      case isTrue hab =>
        refine List.pairwise_cons.2 ⟨fun c hc => ?_, hp⟩
        rcases List.mem_cons.1 hc with rfl | hc
        · exact hab
        · exact Nat.lt_trans hab (hb c hc)
      case isFalse hab =>
        split
        case isTrue hab' => exact List.pairwise_cons.2 ⟨fun c hc => hab' ▸ hb c hc, hm⟩
        case isFalse hab' =>
          refine List.pairwise_cons.2 ⟨fun c hc => ?_, ih hm⟩
          rcases Memory.mem_store hc with rfl | hc
          · show b < a
            omega
          · exact hb c hc
  · rcases Memory.mem_store hc with rfl | hc
    · exact ⟨lo, hi⟩
    · exact h.2 c hc

/-! ### Runs of bytes -/

theorem Memory.byte?_storeRun_outside (m : Memory) (a x : Nat) (bs : List Byte)
    (h : ¬(a ≤ x ∧ x < a + bs.length)) :
    Memory.byte? (Memory.storeRun m a bs) x = Memory.byte? m x := by
  induction bs generalizing m a with
  | nil => rfl
  | cons b bs ih =>
    have h' : ¬(a + 1 ≤ x ∧ x < a + 1 + bs.length) := by
      simp only [List.length_cons] at h; omega
    have hx : x ≠ a := by simp only [List.length_cons] at h; omega
    simp [Memory.storeRun, ih _ _ h', Memory.byte?_store, hx]

theorem Memory.byte?_storeRun_inside (m : Memory) (a k : Nat) (bs : List Byte)
    (h : k < bs.length) : Memory.byte? (Memory.storeRun m a bs) (a + k) = bs[k]? := by
  induction bs generalizing m a k with
  | nil => simp at h
  | cons b bs ih =>
    cases k with
    | zero =>
      have : ¬(a + 1 ≤ a ∧ a < a + 1 + bs.length) := by omega
      simp [Memory.storeRun, Memory.byte?_storeRun_outside _ _ _ _ this, Memory.byte?_store]
    | succ k =>
      have := ih (Memory.store m a b) (a + 1) k (by simpa using h)
      simpa [Memory.storeRun, Nat.add_assoc, Nat.add_comm 1 k] using this

theorem Memory.storesRun_storeRun (m : Memory) (a : Nat) (bs : List Byte) :
    Memory.StoresRun m (Memory.storeRun m a bs) a bs :=
  ⟨fun k h => Memory.byte?_storeRun_inside m a k bs h,
    fun x h => Memory.byte?_storeRun_outside m a x bs h⟩

theorem Memory.wf_storeRun {m : Memory} {a : Nat} (bs : List Byte) (h : Memory.wf m)
    (lo : pdataBase ≤ a) (hi : a + bs.length ≤ fbufBase + Config.fbufSize) :
    Memory.wf (Memory.storeRun m a bs) := by
  induction bs generalizing m a with
  | nil => exact h
  | cons b bs ih =>
    simp only [List.length_cons] at hi
    exact ih (Memory.wf_store b h lo (by omega)) (by omega) (by omega)

theorem Memory.wf_nil : Memory.wf [] := by simp [Memory.wf]

/-! ### The buffers -/

theorem State.byteAt_of_mem {s : State} {a : Nat} {v : Byte} (h : Memory.byte? s.mem a = some v) :
    s.byteAt a = v := by simp [State.byteAt, h]

theorem State.byteAt_congr {s t : State} {a b : Nat} (he : t.epoch = s.epoch) (hab : b = a)
    (h : Memory.byte? t.mem b = Memory.byte? s.mem a) : t.byteAt b = s.byteAt a := by
  subst hab; simp [State.byteAt, h, he]

theorem State.fbuf_writeFbuf_inside (s : State) (i k : Nat) (bs : List Byte) (h : k < bs.length) :
    (s.writeFbuf i bs).fbuf (i + k) = bs[k] := by
  refine State.byteAt_of_mem ?_
  rw [← Nat.add_assoc, State.writeFbuf_mem, Memory.byte?_storeRun_inside _ _ _ _ h,
    List.getElem?_eq_getElem h]

theorem State.fbuf_writeFbuf_outside (s : State) (i k : Nat) (bs : List Byte)
    (h : ¬(i ≤ k ∧ k < i + bs.length)) : (s.writeFbuf i bs).fbuf k = s.fbuf k :=
  State.byteAt_congr rfl rfl (Memory.byte?_storeRun_outside _ _ _ _ (by omega))

theorem State.pdata_writePdata_inside (s : State) (i k : Nat) (bs : List Byte) (h : k < bs.length) :
    (s.writePdata i bs).pdata (i + k) = bs[k] := by
  refine State.byteAt_of_mem ?_
  rw [← Nat.add_assoc, State.writePdata_mem, Memory.byte?_storeRun_inside _ _ _ _ h,
    List.getElem?_eq_getElem h]

theorem State.pdata_writePdata_outside (s : State) (i k : Nat) (bs : List Byte)
    (h : ¬(i ≤ k ∧ k < i + bs.length)) : (s.writePdata i bs).pdata k = s.pdata k :=
  State.byteAt_congr rfl rfl (Memory.byte?_storeRun_outside _ _ _ _ (by omega))

@[simp] theorem State.length_fbufBytes (s : State) (i n : Nat) : (s.fbufBytes i n).length = n := by
  simp [State.fbufBytes]

@[simp] theorem State.length_pdataBytes (s : State) (n : Nat) : (s.pdataBytes n).length = n := by
  simp [State.pdataBytes]

@[simp] theorem State.getElem_fbufBytes (s : State) (i n k : Nat) (h : k < (s.fbufBytes i n).length) :
    (s.fbufBytes i n)[k] = s.fbuf (i + k) := by simp [State.fbufBytes]

@[simp] theorem State.getElem_pdataBytes (s : State) (n k : Nat) (h : k < (s.pdataBytes n).length) :
    (s.pdataBytes n)[k] = s.pdata k := by simp [State.pdataBytes]

/-- The buffers and the parameters are all that `fbufBytes` reads. -/
theorem State.fbufBytes_congr {s t : State} {i j n : Nat}
    (h : ∀ k, k < n → t.fbuf (j + k) = s.fbuf (i + k)) : t.fbufBytes j n = s.fbufBytes i n := by
  simp only [State.fbufBytes]
  exact List.map_congr_left fun k hk => h k (List.mem_range.1 hk)

theorem State.pdataBytes_congr {s t : State} {n : Nat} (h : ∀ k, k < n → t.pdata k = s.pdata k) :
    t.pdataBytes n = s.pdataBytes n := by
  simp only [State.pdataBytes]
  exact List.map_congr_left fun k hk => h k (List.mem_range.1 hk)

/-- The first `n` bytes of a frame just written are its first `n` bytes. -/
theorem State.fbufBytes_of_storesRun {t : State} {bs : List Byte} {i n : Nat}
    (h : ∀ k, k < bs.length → Memory.byte? t.mem (fbufBase + k) = bs[k]?) (hn : i + n ≤ bs.length) :
    t.fbufBytes i n = (bs.drop i).take n := by
  apply List.ext_getElem
  · simp; omega
  · intro k h1 h2
    simp only [State.length_fbufBytes] at h1
    rw [State.getElem_fbufBytes]
    simp only [List.getElem_take, List.getElem_drop]
    exact State.byteAt_of_mem ((h (i + k) (by omega)).trans (List.getElem?_eq_getElem (by omega)))

/-- One byte of a frame just written. -/
theorem State.fbuf_of_storesRun {t : State} {bs : List Byte} {k : Nat}
    (h : ∀ k, k < bs.length → Memory.byte? t.mem (fbufBase + k) = bs[k]?) (hk : k < bs.length) :
    t.fbuf k = bs[k] :=
  State.byteAt_of_mem ((h k hk).trans (List.getElem?_eq_getElem hk))

end Sys2Proof.Machine
end

