-- ==== Sys2Proof/Laws/Operands.lean ====
section
/-! SUPPORT. The payload operands: tags and variants, the length of an encoding, and what a decode
writes. -/

namespace Sys2Proof.Machine

/-! ### Tags -/

/-- A tag with a variant is `0x01`-`0x09`, and is that variant's. -/
theorem DataType.ofTag_cases {t : Byte} {d : DataType} (h : DataType.ofTag t = some d) :
    (t = 0x01#8 ∧ d = .bool) ∨ (t = 0x02#8 ∧ d = .uint8) ∨ (t = 0x03#8 ∧ d = .uint32) ∨
    (t = 0x04#8 ∧ d = .dateTime) ∨ (t = 0x05#8 ∧ d = .float32) ∨ (t = 0x06#8 ∧ d = .string128) ∨
    (t = 0x07#8 ∧ d = .timestamp) ∨ (t = 0x08#8 ∧ d = .bytes65) ∨ (t = 0x09#8 ∧ d = .bytes16) := by
  unfold DataType.ofTag at h
  split at h <;> first
    | cases h; done
    | (obtain rfl := Option.some.inj h; simp [BitVec.toNat_eq, *])

/-- A byte without a variant is outside `0x01`-`0x09` (R100). -/
theorem DataType.ofTag_eq_none {t : Byte} : DataType.ofTag t = none ↔ t.toNat = 0 ∨ 9 < t.toNat := by
  constructor
  · intro h
    unfold DataType.ofTag at h
    split at h <;> first | cases h; done | (by_contra hc; simp_all; omega)
  · intro h
    unfold DataType.ofTag
    split <;> first | rfl | (exfalso; omega)

theorem DataType.wireLen_pos (d : DataType) : 1 ≤ d.wireLen := by cases d <;> decide

theorem DataType.wireLen_le (d : DataType) : d.wireLen ≤ 128 := by cases d <;> decide

/-! ### Encoding -/

theorem stringBytes_cases (s : State) :
    (127 < s.pLen.toNat ∧ stringBytes s = .error .stringTooLong) ∨
      (s.pLen.toNat ≤ 127 ∧ stringBytes s = .ok (s.pdataBytes s.pLen.toNat ++ [0x00#8] ++
        List.replicate (127 - s.pLen.toNat) 0x00#8)) := by
  by_cases h : 127 < s.pLen.toNat
  · exact .inl ⟨h, by simp [stringBytes, Config.stringMax, h]⟩
  · exact .inr ⟨by omega, by simp [stringBytes, Config.stringMax, h]⟩

theorem stringBytes_length {s : State} {bs : List Byte} (h : stringBytes s = .ok bs) :
    bs.length = 128 := by
  rcases stringBytes_cases s with ⟨-, e⟩ | ⟨hn, e⟩
  · rw [e] at h; cases h
  · rw [e] at h
    obtain rfl := Except.ok.inj h
    simp; omega

/-- R102: an encoding has its variant's wire length. -/
theorem payloadBytes_length {t : Byte} {s : State} {bs : List Byte} (h : payloadBytes t s = .ok bs) :
    ∃ d, DataType.ofTag t = some d ∧ bs.length = d.wireLen := by
  unfold payloadBytes at h
  split at h
  · cases h
  · rename_i d hd
    refine ⟨d, hd, ?_⟩
    cases d <;> simp only [variantBytes, rawBytes] at h
    case string128 => exact stringBytes_length h
    case bytes65 | bytes16 =>
      split at h
      · cases h
      · obtain rfl := Except.ok.inj h; simp [DataType.wireLen]
    all_goals obtain rfl := Except.ok.inj h; simp [DataType.wireLen]

/-- The failures of an encoding (R102). -/
theorem payloadBytes_error {t : Byte} {s : State} {c : Status} (h : payloadBytes t s = .error c) :
    c = .unsupportedPayloadType ∨ c = .stringTooLong ∨ c = .byteLengthInvalid := by
  unfold payloadBytes at h
  split at h
  · cases h; simp
  · rename_i d _
    cases d <;> simp only [variantBytes, rawBytes, stringBytes] at h <;> first
      | cases h
      | (split at h <;> cases h; simp)

/-! ### Decoding -/

/-- The failures of a decoding (R105). -/
theorem payloadValue_error {t : Byte} {bs : List Byte} {c : Status} (h : payloadValue t bs = .error c) :
    c = .unknownDataType ∨ c = .byteLengthInvalid ∨ c = .invalidBoolEncoding ∨
      c = .stringNotTerminated := by
  unfold payloadValue at h
  split at h
  · cases h; simp
  · rename_i d _
    split at h
    · cases h; simp
    · cases d <;> simp only [variantValue] at h <;> first
        | cases h
        | (split at h <;> cases h; simp)

/-- A decoding succeeds only on a region of the tag's wire length (R101). -/
theorem payloadValue_length {t : Byte} {bs : List Byte} {v : PayloadValue}
    (h : payloadValue t bs = .ok v) : ∃ d, DataType.ofTag t = some d ∧ bs.length = d.wireLen := by
  unfold payloadValue at h
  split at h
  · cases h
  · rename_i d hd
    split at h
    · cases h
    · exact ⟨d, hd, Decidable.not_not.1 ‹¬ _›⟩

/-- Decoded content fits `P_DATA`. -/
theorem payloadValue_content_le {t : Byte} {bs c : List Byte} (h : payloadValue t bs = .ok (.content c)) :
    c.length ≤ 128 := by
  obtain ⟨d, hd, hl⟩ := payloadValue_length h
  have hle := d.wireLen_le
  simp only [payloadValue, hd, hl, ne_eq, not_true_eq_false, if_false] at h
  have hc : c.length ≤ bs.length := by
    cases d <;> simp only [variantValue, Except.ok.injEq, PayloadValue.content.injEq,
      reduceCtorEq] at h
    case bool => split at h <;> cases h
    case string128 =>
      split at h
      · simp only [Except.ok.injEq, PayloadValue.content.injEq] at h
        subst h
        exact (List.takeWhile_prefix _).length_le
      · cases h
    all_goals rw [h]
  omega

/-! ### Performing a decode's writes: the registers no variant has -/

variable (s : State) (w : PayloadValue)

@[simp] theorem State.perform_cmd : (s.perform w).cmd = s.cmd := by cases w <;> rfl
@[simp] theorem State.perform_status : (s.perform w).status = s.status := by cases w <;> rfl
@[simp] theorem State.perform_engstat : (s.perform w).engstat = s.engstat := by cases w <;> rfl
@[simp] theorem State.perform_flen : (s.perform w).flen = s.flen := by cases w <;> rfl
@[simp] theorem State.perform_crc : (s.perform w).crc = s.crc := by cases w <;> rfl
@[simp] theorem State.perform_crcCalc : (s.perform w).crcCalc = s.crcCalc := by cases w <;> rfl
@[simp] theorem State.perform_crcRecv : (s.perform w).crcRecv = s.crcRecv := by cases w <;> rfl
@[simp] theorem State.perform_crcIn : (s.perform w).crcIn = s.crcIn := by cases w <;> rfl
@[simp] theorem State.perform_fKind : (s.perform w).fKind = s.fKind := by cases w <;> rfl
@[simp] theorem State.perform_fFlags : (s.perform w).fFlags = s.fFlags := by cases w <;> rfl
@[simp] theorem State.perform_fDtype : (s.perform w).fDtype = s.fDtype := by cases w <;> rfl
@[simp] theorem State.perform_fErrcode : (s.perform w).fErrcode = s.fErrcode := by cases w <;> rfl
@[simp] theorem State.perform_fEid : (s.perform w).fEid = s.fEid := by cases w <;> rfl
@[simp] theorem State.perform_pType : (s.perform w).pType = s.pType := by cases w <;> rfl
@[simp] theorem State.perform_aCtrl : (s.perform w).aCtrl = s.aCtrl := by cases w <;> rfl
@[simp] theorem State.perform_aPort : (s.perform w).aPort = s.aPort := by cases w <;> rfl
@[simp] theorem State.perform_params : (s.perform w).params = s.params := by cases w <;> rfl
@[simp] theorem State.perform_pending : (s.perform w).pending = s.pending := by cases w <;> rfl
@[simp] theorem State.perform_returned : (s.perform w).returned = s.returned := by cases w <;> rfl
@[simp] theorem State.perform_epoch : (s.perform w).epoch = s.epoch := by cases w <;> rfl

/-- What `perform` can do to the buffers: store one run of content bytes in `P_DATA`. -/
theorem State.perform_mem : (∃ c, w = .content c ∧
      (s.perform w).mem = Memory.storeRun s.mem pdataBase c) ∨
    ((∀ c, w ≠ .content c) ∧ (s.perform w).mem = s.mem) := by
  cases w <;> simp [State.perform]

/-- No decode of a payload touches the frame buffer. -/
theorem State.perform_byte?_of_le (hw : ∀ c, w = .content c → c.length ≤ 128) (a : Nat)
    (ha : fbufBase ≤ a) : Memory.byte? (s.perform w).mem a = Memory.byte? s.mem a := by
  rcases s.perform_mem w with ⟨c, hc, e⟩ | ⟨-, e⟩
  · rw [e, Memory.byte?_storeRun_outside]
    have := hw c hc
    simp only [fbufBase, pdataBase] at *
    omega
  · rw [e]

/-- Nor any byte below the buffers. -/
theorem State.perform_byte?_of_lt (a : Nat) (ha : a < pdataBase) :
    Memory.byte? (s.perform w).mem a = Memory.byte? s.mem a := by
  rcases s.perform_mem w with ⟨c, hc, e⟩ | ⟨-, e⟩
  · rw [e, Memory.byte?_storeRun_outside]; omega
  · rw [e]

theorem State.perform_wf (hw : ∀ c, w = .content c → c.length ≤ 128) (h : Memory.wf s.mem) :
    Memory.wf (s.perform w).mem := by
  rcases s.perform_mem w with ⟨c, hc, e⟩ | ⟨-, e⟩
  · rw [e]
    have := hw c hc
    exact Memory.wf_storeRun c h (Nat.le_refl _) (by simp only [pdataBase, fbufBase, Config.fbufSize]; omega)
  · rwa [e]

end Sys2Proof.Machine
end

