-- ==== Sys2Proof/Laws/Packet.lean ====
section
/-! SUPPORT. The framer's shared procedures: everything the decode prologue, a decode command and an
encoder can do, each said once. -/

namespace Sys2Proof.Machine

theorem definedKind_iff {k : Byte} :
    definedKind k = true ↔ k ∈ [0x00#8, 0x01#8, 0x02#8, 0x04#8, 0x09#8] := by
  simp [definedKind, or_assoc]

@[simp] theorem Shape.definedKind_kind (sh : Shape) : definedKind sh.kind = true := by
  cases sh <;> rfl

theorem Shape.minLen_ge (sh : Shape) : 9 ≤ sh.minLen := by cases sh <;> decide

/-- `capture` in the prologue writes the checksums that `State.captured` names. -/
theorem capture_eq_captured (s : State) :
    s.capture (s.checksumTo (s.flen.toNat - 2)) (s.trailer s.flen.toNat) = s.captured := rfl

/-! ### The prologue -/

/-- A frame that passes every check of R129. -/
theorem decodePrologue_ok {sh : Shape} {s : State} (h : s.passesPrologue sh.minLen sh.kind) :
    decodePrologue sh s = .ok s.captured := by
  obtain ⟨h1, h2, ⟨h3, h4⟩, h5⟩ := h
  have a : ¬ 152 < s.flen.toNat := by omega
  have b : ¬ s.flen.toNat < sh.minLen := by omega
  have h4' : s.checksumTo (s.flen.toNat - 2) = s.trailer s.flen.toNat := h4
  simp only [decodePrologue, Config.fbufSize, magic, a, b, h3, h4', h5, Shape.definedKind_kind,
    ne_eq, not_true_eq_false, if_false, Bool.true_eq_false]
  rw [← capture_eq_captured, ← h4']

/-- Everything the prologue can do (R129, R152): pass with the checksums captured; fail before the
checksum step; or fail at it or after it, with the checksums captured. -/
theorem decodePrologue_cases (sh : Shape) (s : State) :
    (s.passesPrologue sh.minLen sh.kind ∧ decodePrologue sh s = .ok s.captured) ∨
    (∃ c, (c = .frameLengthInvalid ∨ c = .frameTooShort ∨ c = .malformedHeader) ∧
      ¬(sh.minLen ≤ s.flen.toNat ∧ s.flen.toNat ≤ 152 ∧
        s.fbufBytes 0 4 = [0x48#8, 0x58#8, 0x30#8, 0x43#8]) ∧
      decodePrologue sh s = .error (s.fail c)) ∨
    (∃ c, (c = .checksumMismatch ∨ c = .unknownPacketType ∨ c = .wrongPacketType) ∧
      (sh.minLen ≤ s.flen.toNat ∧ s.flen.toNat ≤ 152 ∧
        s.fbufBytes 0 4 = [0x48#8, 0x58#8, 0x30#8, 0x43#8]) ∧
      ¬ s.passesPrologue sh.minLen sh.kind ∧
      decodePrologue sh s = .error (s.captured.fail c)) := by
  by_cases a : 152 < s.flen.toNat
  · exact .inr (.inl ⟨_, .inl rfl, by omega, by simp [decodePrologue, Config.fbufSize, a]⟩)
  by_cases b : s.flen.toNat < sh.minLen
  · exact .inr (.inl ⟨_, .inr (.inl rfl), by omega, by simp [decodePrologue, Config.fbufSize, a, b]⟩)
  by_cases c : s.fbufBytes 0 4 = [0x48#8, 0x58#8, 0x30#8, 0x43#8]
  swap
  · exact .inr (.inl ⟨_, .inr (.inr rfl), fun h => c h.2.2,
      by simp [decodePrologue, Config.fbufSize, magic, a, b, c]⟩)
  have hl : sh.minLen ≤ s.flen.toNat ∧ s.flen.toNat ≤ 152 ∧
      s.fbufBytes 0 4 = [0x48#8, 0x58#8, 0x30#8, 0x43#8] := ⟨by omega, by omega, c⟩
  by_cases d : s.checksumTo (s.flen.toNat - 2) = s.trailer s.flen.toNat
  swap
  · exact .inr (.inr ⟨_, .inl rfl, hl, fun h => d h.2.2.1.2,
      by simp [decodePrologue, Config.fbufSize, magic, a, b, c, d, capture_eq_captured]⟩)
  by_cases e : definedKind (s.fbuf 4) = false
  · refine .inr (.inr ⟨_, .inr (.inl rfl), hl, fun h => ?_, ?_⟩)
    · rw [h.2.2.2] at e; simp at e
    · have := capture_eq_captured s
      rw [d] at this
      simp [decodePrologue, Config.fbufSize, magic, a, b, c, d, e, this]
  by_cases f : s.fbuf 4 = sh.kind
  · have hp : s.passesPrologue sh.minLen sh.kind := ⟨hl.1, hl.2.1, ⟨c, d⟩, f⟩
    exact .inl ⟨hp, decodePrologue_ok hp⟩
  · refine .inr (.inr ⟨_, .inr (.inr rfl), hl, fun h => f h.2.2.2, ?_⟩)
    have := capture_eq_captured s
    rw [d] at this
    simp [decodePrologue, Config.fbufSize, magic, a, b, c, d, e, f, this]

/-! ### A whole decode command -/

/-- Everything a decode command can do, given what its own part can do. -/
theorem decodeFrame_cases (sh : Shape) (rest : State → Except Status State) (s : State) :
    (∃ c, (c = .frameLengthInvalid ∨ c = .frameTooShort ∨ c = .malformedHeader) ∧
      ¬(sh.minLen ≤ s.flen.toNat ∧ s.flen.toNat ≤ 152 ∧
        s.fbufBytes 0 4 = [0x48#8, 0x58#8, 0x30#8, 0x43#8]) ∧
      decodeFrame sh rest s = s.fail c) ∨
    (∃ c, (c = .checksumMismatch ∨ c = .unknownPacketType ∨ c = .wrongPacketType) ∧
      (sh.minLen ≤ s.flen.toNat ∧ s.flen.toNat ≤ 152 ∧
        s.fbufBytes 0 4 = [0x48#8, 0x58#8, 0x30#8, 0x43#8]) ∧
      decodeFrame sh rest s = s.captured.fail c) ∨
    (∃ c, s.passesPrologue sh.minLen sh.kind ∧ rest s.captured = .error c ∧
      decodeFrame sh rest s = s.captured.fail c) ∨
    (∃ u, s.passesPrologue sh.minLen sh.kind ∧ rest s.captured = .ok u ∧
      decodeFrame sh rest s = u.commit) := by
  rcases decodePrologue_cases sh s with ⟨hp, e⟩ | ⟨c, hc, hn, e⟩ | ⟨c, hc, hl, -, e⟩
  · cases hr : rest s.captured with
    | error c => exact .inr (.inr (.inl ⟨c, hp, rfl, by simp [decodeFrame, e, hr]⟩))
    | ok u => exact .inr (.inr (.inr ⟨u, hp, rfl, by simp [decodeFrame, e, hr]⟩))
  · exact .inl ⟨c, hc, hn, by simp [decodeFrame, e]⟩
  · exact .inr (.inl ⟨c, hc, hl, by simp [decodeFrame, e]⟩)

/-! ### The decoders' own parts -/

theorem decodeErrorRest_cases (s : State) :
    (s.flen.toNat ≠ 9 ∧ decodeErrorRest s = .error .frameLengthInvalid) ∨
    (s.flen.toNat = 9 ∧ decodeErrorRest s =
      .ok { s with fKind := 0x00#8, fFlags := s.fbuf 5, fErrcode := s.fbuf 6 }) := by
  unfold decodeErrorRest
  split
  · exact .inl ⟨‹_›, rfl⟩
  · exact .inr ⟨Decidable.not_not.1 ‹¬ _›, rfl⟩

theorem decodeEidRest_cases (sh : Shape) (s : State) :
    (s.flen.toNat ≠ 12 ∧ decodeEidRest sh s = .error .frameLengthInvalid) ∨
    (s.flen.toNat = 12 ∧ decodeEidRest sh s = .ok (takeEidFields sh s)) := by
  unfold decodeEidRest
  split
  · exact .inl ⟨‹_›, rfl⟩
  · exact .inr ⟨Decidable.not_not.1 ‹¬ _›, rfl⟩

theorem decodePayloadRest_cases (sh : Shape) (t : Byte) (s : State) :
    (∃ c, payloadValue t (s.fbufBytes 11 (s.flen.toNat - 13)) = .error c ∧
      decodePayloadRest sh t s = .error c) ∨
    (∃ w, payloadValue t (s.fbufBytes 11 (s.flen.toNat - 13)) = .ok w ∧
      decodePayloadRest sh t s =
        .ok ({ takeEidFields sh s with fDtype := s.fbuf 10, pType := t }.perform w)) := by
  unfold decodePayloadRest
  split
  · rename_i c h; exact .inl ⟨c, h, rfl⟩
  · rename_i w h; exact .inr ⟨w, h, rfl⟩

/-- Performing a payload's writes and setting the fields around it commute. -/
theorem perform_takeEidFields (sh : Shape) (t : Byte) (s : State) (w : PayloadValue) :
    ({ takeEidFields sh s with fDtype := s.fbuf 10, pType := t }).perform w =
      { s.perform w with
        fKind := sh.kind, fFlags := s.fbuf 5
        fEid := ofBe32 (s.fbuf 6) (s.fbuf 7) (s.fbuf 8) (s.fbuf 9)
        fDtype := s.fbuf 10, pType := t } := by
  cases w <;> rfl

/-! ### The encoders -/

/-- `finish_frame` (R128) in one record. -/
theorem finishFrame_eq (body : List Byte) (s : State) :
    finishFrame body s =
      { s with
        mem := Memory.storeRun s.mem fbufBase (body ++ be16 (checksum s.params.crcInit body))
        flen := BitVec.ofNat 8 (body.length + 2)
        crcCalc := checksum s.params.crcInit body
        status := 0x00#8 } := rfl

@[simp] theorem length_frameHeader (sh : Shape) (s : State) : (frameHeader sh s).length = 6 := rfl

@[simp] theorem length_eidBody (sh : Shape) (s : State) : (eidBody sh s).length = 10 := rfl

theorem eidBody_eq (sh : Shape) (s : State) :
    eidBody sh s = [0x48#8, 0x58#8, 0x30#8, 0x43#8, sh.kind, s.fFlags, s.fEid.extractLsb' 24 8,
      s.fEid.extractLsb' 16 8, s.fEid.extractLsb' 8 8, s.fEid.extractLsb' 0 8] := rfl

theorem encodePayloadFrame_cases (sh : Shape) (s : State) :
    (∃ c, payloadBytes s.pType s = .error c ∧ encodePayloadFrame sh s = s.fail c) ∨
    (∃ pb, payloadBytes s.pType s = .ok pb ∧ pb.length ≤ 128 ∧
      encodePayloadFrame sh s = finishFrame (eidBody sh s ++ [s.pType] ++ pb) s) := by
  unfold encodePayloadFrame
  split
  · rename_i c h; exact .inl ⟨c, h, rfl⟩
  · rename_i pb h
    obtain ⟨d, -, hl⟩ := payloadBytes_length h
    exact .inr ⟨pb, h, hl ▸ d.wireLen_le, rfl⟩

/-- A frame just finished is one every later read of the buffer sees whole. -/
theorem finishFrame_fbuf (body : List Byte) (s : State) :
    ∀ k, k < (body ++ be16 (checksum s.params.crcInit body)).length →
      Memory.byte? (finishFrame body s).mem (fbufBase + k) =
        (body ++ be16 (checksum s.params.crcInit body))[k]? := by
  intro k hk
  rw [finishFrame_eq]
  exact Memory.byte?_storeRun_inside _ _ _ _ hk

/-- A finished frame verifies, whoever checks it (R145): the trailer is the checksum. -/
theorem finishFrame_captured (body : List Byte) (s : State) (h : body.length ≤ 253) :
    (finishFrame body s).captured =
      { finishFrame body s with crcRecv := checksum s.params.crcInit body } := by
  have hf : (finishFrame body s).flen.toNat = body.length + 2 := by
    rw [finishFrame_eq]; simp; omega
  have hp : (finishFrame body s).params = s.params := rfl
  have hb : (finishFrame body s).fbufBytes 0 body.length = body := by
    rw [State.fbufBytes_of_storesRun (finishFrame_fbuf body s) (by simp)]
    simp
  have e1 : (finishFrame body s).fbuf body.length =
      (checksum s.params.crcInit body).extractLsb' 8 8 := by
    rw [State.fbuf_of_storesRun (finishFrame_fbuf body s) (by simp)]
    simp [be16]
  have e2 : (finishFrame body s).fbuf (body.length + 1) =
      (checksum s.params.crcInit body).extractLsb' 0 8 := by
    rw [State.fbuf_of_storesRun (finishFrame_fbuf body s) (by simp)]
    simp [be16]
  have e3 : body.length + 2 - 1 = body.length + 1 := by omega
  unfold State.captured
  rw [hf, hp, Nat.add_sub_cancel, e3, hb, e1, e2, ofBe16_extract]
  rfl

/-- A frame an encoder has just finished passes the prologue of its own shape. -/
theorem finishFrame_passes (sh : Shape) (body : List Byte) (s : State) (h : body.length ≤ 150)
    (hm : sh.minLen ≤ body.length + 2) (head : body.take 4 = [0x48#8, 0x58#8, 0x30#8, 0x43#8])
    (kind : body[4]? = some sh.kind) :
    (finishFrame body s).passesPrologue sh.minLen sh.kind := by
  have hf : (finishFrame body s).flen.toNat = body.length + 2 := by
    rw [finishFrame_eq]; simp; omega
  have h5 : 4 < body.length := by
    by_contra hc
    rw [List.getElem?_eq_none (by omega)] at kind
    cases kind
  refine ⟨by omega, by omega, ⟨?_, ?_⟩, ?_⟩
  · rw [State.fbufBytes_of_storesRun (finishFrame_fbuf body s) (by simp; omega), ← head]
    simp [List.take_append_of_le_length (show 4 ≤ body.length by omega)]
  · rw [finishFrame_captured _ _ (by omega)]
    rfl
  · rw [State.fbuf_of_storesRun (finishFrame_fbuf body s) (by simp; omega)]
    rw [List.getElem_append_left h5]
    rw [List.getElem?_eq_getElem h5] at kind
    exact Option.some.inj kind

end Sys2Proof.Machine
end

