-- ==== Sys2Proof/Laws/Exec.lean ====
section
/-! SUPPORT. What each command can do, one lemma per command (or per pair that shares an operation): the
provers' inversion lemmas for `exec`. -/

namespace Sys2Proof.Machine

variable (s : State)

/-! ### Commands without a condition -/

theorem exec_nop : exec .nop s = .next s.commit := rfl

theorem exec_crcInit : exec .crcInit s = .next { s with crc := s.params.crcInit }.commit := rfl

theorem exec_crcFeed : exec .crcFeed s = .next { s with crc := crcByte s.crc s.crcIn }.commit := rfl

theorem exec_encError :
    exec .encError s = .next (finishFrame (frameHeader .error s ++ [s.fErrcode]) s) := rfl

theorem exec_encQuery : exec .encQuery s = .next (finishFrame (eidBody .query s) s) := rfl

theorem exec_encEpquery : exec .encEpquery s = .next (finishFrame (eidBody .epQuery s) s) := rfl

/-! ### Checksum commands -/

theorem exec_crcCompute_cases :
    (152 < s.flen.toNat ∧ exec .crcCompute s = .next (s.fail .frameLengthInvalid)) ∨
    (s.flen.toNat ≤ 152 ∧
      exec .crcCompute s = .next { s with crcCalc := s.checksumTo s.flen.toNat }.commit) := by
  by_cases h : 152 < s.flen.toNat
  · exact .inl ⟨h, by simp [exec, execCrcCompute, Config.fbufSize, h]⟩
  · exact .inr ⟨by omega, by simp [exec, execCrcCompute, Config.fbufSize, h]⟩

theorem exec_crcAppend_cases :
    (152 < s.flen.toNat ∧ exec .crcAppend s = .next (s.fail .frameLengthInvalid)) ∨
    (150 < s.flen.toNat ∧ s.flen.toNat ≤ 152 ∧
      exec .crcAppend s = .next (s.fail .bufferOverflow)) ∨
    (s.flen.toNat ≤ 150 ∧ exec .crcAppend s = .next
      { s.writeFbuf s.flen.toNat (be16 (s.checksumTo s.flen.toNat)) with
        crcCalc := s.checksumTo s.flen.toNat
        flen := BitVec.ofNat 8 (s.flen.toNat + 2) }.commit) := by
  by_cases h : 152 < s.flen.toNat
  · exact .inl ⟨h, by simp [exec, execCrcAppend, Config.fbufSize, h]⟩
  by_cases h' : 152 < s.flen.toNat + 2
  · exact .inr (.inl ⟨by omega, by omega, by simp [exec, execCrcAppend, Config.fbufSize, h, h']⟩)
  · exact .inr (.inr ⟨by omega, by simp [exec, execCrcAppend, Config.fbufSize, h, h']⟩)

theorem exec_crcVerify_cases :
    (152 < s.flen.toNat ∧ exec .crcVerify s = .next (s.fail .frameLengthInvalid)) ∨
    (s.flen.toNat < 2 ∧ exec .crcVerify s = .next (s.fail .frameTooShort)) ∨
    ((2 ≤ s.flen.toNat ∧ s.flen.toNat ≤ 152) ∧
      (s.captured.crcCalc ≠ s.captured.crcRecv ∧
          exec .crcVerify s = .next (s.captured.fail .checksumMismatch) ∨
        s.captured.crcCalc = s.captured.crcRecv ∧ exec .crcVerify s = .next s.captured.commit)) := by
  by_cases h : 152 < s.flen.toNat
  · exact .inl ⟨h, by simp [exec, execCrcVerify, Config.fbufSize, h]⟩
  by_cases h' : s.flen.toNat < 2
  · exact .inr (.inl ⟨h', by simp [exec, execCrcVerify, Config.fbufSize, h, h']⟩)
  refine .inr (.inr ⟨by omega, ?_⟩)
  by_cases e : s.captured.crcCalc = s.captured.crcRecv
  · have e' : s.checksumTo (s.flen.toNat - 2) = s.trailer s.flen.toNat := e
    refine .inr ⟨e, ?_⟩
    have := capture_eq_captured s
    rw [e'] at this
    simp [exec, execCrcVerify, Config.fbufSize, h, h', e', this]
  · have e' : s.checksumTo (s.flen.toNat - 2) ≠ s.trailer s.flen.toNat := e
    exact .inl ⟨e, by simp [exec, execCrcVerify, Config.fbufSize, h, h', e', capture_eq_captured]⟩

/-! ### Payload commands -/

theorem exec_payEncode_cases :
    (152 < s.flen.toNat ∧ exec .payEncode s = .next (s.fail .frameLengthInvalid)) ∨
    (s.flen.toNat ≤ 152 ∧
      ((∃ c, payloadBytes s.pType s = .error c ∧ exec .payEncode s = .next (s.fail c)) ∨
      (∃ pb, payloadBytes s.pType s = .ok pb ∧
        (152 < s.flen.toNat + 1 + pb.length ∧
            exec .payEncode s = .next (s.fail .bufferOverflow) ∨
          s.flen.toNat + 1 + pb.length ≤ 152 ∧
            exec .payEncode s = .next
              { s.writeFbuf s.flen.toNat (s.pType :: pb) with
                flen := BitVec.ofNat 8 (s.flen.toNat + 1 + pb.length) }.commit)))) := by
  by_cases h : 152 < s.flen.toNat
  · exact .inl ⟨h, by simp [exec, execPayEncode, Config.fbufSize, h]⟩
  refine .inr ⟨by omega, ?_⟩
  cases e : payloadBytes s.pType s with
  | error c => exact .inl ⟨c, rfl, by simp [exec, execPayEncode, Config.fbufSize, h, e]⟩
  | ok pb =>
    refine .inr ⟨pb, rfl, ?_⟩
    by_cases h' : 152 < s.flen.toNat + 1 + pb.length
    · exact .inl ⟨h', by simp [exec, execPayEncode, Config.fbufSize, h, e, h']⟩
    · exact .inr ⟨by omega, by simp [exec, execPayEncode, Config.fbufSize, h, e, h']⟩

theorem exec_payDecode_cases :
    (152 < s.flen.toNat ∧ exec .payDecode s = .next (s.fail .frameLengthInvalid)) ∨
    (s.flen.toNat ≤ 152 ∧
      ((∃ c, payloadValue s.pType (s.fbufBytes 0 s.flen.toNat) = .error c ∧
          exec .payDecode s = .next (s.fail c)) ∨
      (∃ w, payloadValue s.pType (s.fbufBytes 0 s.flen.toNat) = .ok w ∧
          exec .payDecode s = .next (s.perform w).commit))) := by
  by_cases h : 152 < s.flen.toNat
  · exact .inl ⟨h, by simp [exec, execPayDecode, Config.fbufSize, h]⟩
  refine .inr ⟨by omega, ?_⟩
  cases e : payloadValue s.pType (s.fbufBytes 0 s.flen.toNat) with
  | error c => exact .inl ⟨c, rfl, by simp [exec, execPayDecode, Config.fbufSize, h, e]⟩
  | ok w => exact .inr ⟨w, rfl, by simp [exec, execPayDecode, Config.fbufSize, h, e]⟩

/-! ### Packet commands -/

theorem exec_encInfo : exec .encInfo s = .next (encodePayloadFrame .info s) := rfl

theorem exec_encWrite : exec .encWrite s = .next (encodePayloadFrame .write s) := rfl

theorem exec_encEpinfo_cases :
    (127 < s.pLen.toNat ∧ exec .encEpinfo s = .next (s.fail .stringTooLong)) ∨
    (∃ sb, s.pLen.toNat ≤ 127 ∧ stringBytes s = .ok sb ∧ sb.length = 128 ∧
      exec .encEpinfo s = .next (finishFrame (eidBody .epInfo s ++ [s.fDtype] ++ sb) s)) := by
  rcases stringBytes_cases s with ⟨h, e⟩ | ⟨h, e⟩
  · exact .inl ⟨h, by simp [exec, execEncEpinfo, e]⟩
  · exact .inr ⟨_, h, e, stringBytes_length e, by simp [exec, execEncEpinfo, e]⟩

theorem exec_decError : exec .decError s = .next (decodeFrame .error decodeErrorRest s) := rfl

theorem exec_decInfo : exec .decInfo s =
    .next (decodeFrame .info (fun t => decodePayloadRest .info (t.fbuf 10) t) s) := rfl

theorem exec_decQuery : exec .decQuery s = .next (decodeFrame .query (decodeEidRest .query) s) := rfl

theorem exec_decWrite : exec .decWrite s =
    .next (decodeFrame .write (fun t => decodePayloadRest .write (t.fbuf 10) t) s) := rfl

theorem exec_decEpinfo : exec .decEpinfo s =
    .next (decodeFrame .epInfo (decodePayloadRest .epInfo 0x06#8) s) := rfl

theorem exec_decEpquery : exec .decEpquery s =
    .next (decodeFrame .epQuery (decodeEidRest .epQuery) s) := rfl

theorem exec_pktKind_cases :
    (152 < s.flen.toNat ∧ exec .pktKind s = .next (s.fail .frameLengthInvalid)) ∨
    (s.flen.toNat < 5 ∧ exec .pktKind s = .next (s.fail .frameTooShort)) ∨
    ((5 ≤ s.flen.toNat ∧ s.flen.toNat ≤ 152) ∧
      (definedKind (s.fbuf 4) = false ∧ exec .pktKind s = .next (s.fail .unknownPacketType) ∨
        definedKind (s.fbuf 4) = true ∧
          exec .pktKind s = .next { s with fKind := s.fbuf 4 }.commit)) := by
  by_cases h : 152 < s.flen.toNat
  · exact .inl ⟨h, by simp [exec, execPktKind, Config.fbufSize, h]⟩
  by_cases h' : s.flen.toNat < 5
  · exact .inr (.inl ⟨h', by simp [exec, execPktKind, Config.fbufSize, h, h']⟩)
  refine .inr (.inr ⟨by omega, ?_⟩)
  cases e : definedKind (s.fbuf 4) with
  | false => exact .inl ⟨rfl, by simp [exec, execPktKind, Config.fbufSize, h, h', e]⟩
  | true => exact .inr ⟨rfl, by simp [exec, execPktKind, Config.fbufSize, h, h', e]⟩

/-! ### The address command -/

theorem exec_addrNorm_cases :
    (s.params.hasAddrUnit = false ∧ exec .addrNorm s = .next (s.fail .illegalCommand)) ∨
    (s.params.hasAddrUnit = true ∧
      (s.portValid = false ∧ exec .addrNorm s = .next
          { s with aPort := Config.defaultPort, aCtrl := s.aCtrl ||| 0x01#8 }.commit ∨
        s.portValid = true ∧ exec .addrNorm s = .next s.commit)) := by
  cases h : s.params.hasAddrUnit with
  | false => exact .inl ⟨rfl, by simp [exec, execAddrNorm, h]⟩
  | true =>
    cases e : s.portValid with
    | false => exact .inr ⟨rfl, .inl ⟨rfl, by simp [exec, execAddrNorm, h, e]⟩⟩
    | true => exact .inr ⟨rfl, .inr ⟨rfl, by simp [exec, execAddrNorm, h, e]⟩⟩

end Sys2Proof.Machine
end

