-- ==== Sys2Proof/Laws/PerInstr.lean ====
section
/-! SUPPORT. Statements for all commands, one lemma per constructor. -/

namespace Sys2Proof.Laws.EncodingRow

/-- R63, R66: the command's byte decodes to it, and is one of the bytes of the command map. -/
def Statement (i : Instr) : Prop :=
  decode (encode i) = some i ∧ (encode i).toNat ≤ 0x30

theorem nop : Statement .nop := ⟨rfl, by decide⟩
theorem crcInit : Statement .crcInit := ⟨rfl, by decide⟩
theorem crcFeed : Statement .crcFeed := ⟨rfl, by decide⟩
theorem crcCompute : Statement .crcCompute := ⟨rfl, by decide⟩
theorem crcAppend : Statement .crcAppend := ⟨rfl, by decide⟩
theorem crcVerify : Statement .crcVerify := ⟨rfl, by decide⟩
theorem payEncode : Statement .payEncode := ⟨rfl, by decide⟩
theorem payDecode : Statement .payDecode := ⟨rfl, by decide⟩
theorem pktKind : Statement .pktKind := ⟨rfl, by decide⟩
theorem encError : Statement .encError := ⟨rfl, by decide⟩
theorem encInfo : Statement .encInfo := ⟨rfl, by decide⟩
theorem encQuery : Statement .encQuery := ⟨rfl, by decide⟩
theorem encWrite : Statement .encWrite := ⟨rfl, by decide⟩
theorem encEpinfo : Statement .encEpinfo := ⟨rfl, by decide⟩
theorem encEpquery : Statement .encEpquery := ⟨rfl, by decide⟩
theorem decError : Statement .decError := ⟨rfl, by decide⟩
theorem decInfo : Statement .decInfo := ⟨rfl, by decide⟩
theorem decQuery : Statement .decQuery := ⟨rfl, by decide⟩
theorem decWrite : Statement .decWrite := ⟨rfl, by decide⟩
theorem decEpinfo : Statement .decEpinfo := ⟨rfl, by decide⟩
theorem decEpquery : Statement .decEpquery := ⟨rfl, by decide⟩
theorem addrNorm : Statement .addrNorm := ⟨rfl, by decide⟩

end Sys2Proof.Laws.EncodingRow
end

