-- ==== Sys2Proof/Laws/Window.lean ====
section
/-! SUPPORT. The register window: where an address stands, and read over write for each kind of place. -/

namespace Sys2Proof.Machine

/-! ### The register map -/

/-- An address that stands at a register byte (R44). -/
theorem locate_reg {p : Params} {a k : Nat} {r : Reg} (h : locate p a = .reg r k) :
    r.present p = true ∧ a = r.base + k ∧ k < r.size := by
  unfold locate at h
  split at h
  · cases h
  · split at h
    · cases h
    · split at h
      · rename_i q hq
        have hs := List.find?_some hq
        simp only [Loc.reg.injEq] at h
        obtain ⟨rfl, rfl⟩ := h
        simp only [Bool.and_eq_true, decide_eq_true_eq] at hs
        exact ⟨hs.1.1, by omega, by omega⟩
      · cases h

theorem locate_pdata {p : Params} {a i : Nat} (h : locate p a = .pdata i) :
    a = 0x080 + i ∧ i < 128 := by
  unfold locate at h
  split at h
  · obtain rfl := Loc.pdata.inj h
    simp only [pdataBase, Config.pdataSize] at *; omega
  · split at h
    · cases h
    · split at h <;> cases h

theorem locate_fbuf {p : Params} {a i : Nat} (h : locate p a = .fbuf i) :
    a = 0x100 + i ∧ i < 152 := by
  unfold locate at h
  split at h
  · cases h
  · split at h
    · obtain rfl := Loc.fbuf.inj h
      simp only [fbufBase, Config.fbufSize] at *; omega
    · split at h <;> cases h

theorem locate_of_pdata (p : Params) {i : Nat} (h : i < 128) : locate p (0x080 + i) = .pdata i := by
  have h1 : pdataBase ≤ 0x080 + i ∧ 0x080 + i < pdataBase + Config.pdataSize := by
    simp only [pdataBase, Config.pdataSize]; omega
  rw [locate, if_pos h1]
  simp [pdataBase]

theorem locate_of_fbuf (p : Params) {i : Nat} (h : i < 152) : locate p (0x100 + i) = .fbuf i := by
  have h1 : ¬(pdataBase ≤ 0x100 + i ∧ 0x100 + i < pdataBase + Config.pdataSize) := by
    simp only [pdataBase, Config.pdataSize]; omega
  have h2 : fbufBase ≤ 0x100 + i ∧ 0x100 + i < fbufBase + Config.fbufSize := by
    simp only [fbufBase, Config.fbufSize]; omega
  rw [locate, if_neg h1, if_pos h2]
  simp [fbufBase]

/-- Registers do not share addresses. -/
theorem Reg.base_injective {r q : Reg} {j k : Nat} (hj : j < r.size) (hk : k < q.size)
    (h : r.base + j = q.base + k) : r = q := by
  cases r <;> cases q <;> first
    | rfl
    | (simp only [Reg.base, Reg.size] at hj hk h; omega)

/-- Every register row of R44 is where the map says. -/
theorem locate_of_reg {p : Params} {r : Reg} {k : Nat} (hp : r.present p = true) (hk : k < r.size) :
    locate p (r.base + k) = .reg r k := by
  have hb : r.base + k < 0x028 := by
    cases r <;> simp only [Reg.base, Reg.size] at hk ⊢ <;> omega
  have h1 : ¬(pdataBase ≤ r.base + k ∧ r.base + k < pdataBase + Config.pdataSize) := by
    simp only [pdataBase]; omega
  have h2 : ¬(fbufBase ≤ r.base + k ∧ r.base + k < fbufBase + Config.fbufSize) := by
    simp only [fbufBase]; omega
  rw [locate, if_neg h1, if_neg h2]
  cases hf : Reg.all.find? fun q => q.present p && q.base ≤ r.base + k && r.base + k < q.base + q.size with
  | none =>
    have := List.find?_eq_none.1 hf r (by cases r <;> decide)
    simp only [hp, Bool.true_and, Bool.and_eq_true, decide_eq_true_eq] at this
    omega
  | some q =>
    have hs := List.find?_some hf
    simp only [Bool.and_eq_true, decide_eq_true_eq] at hs
    have e : q = r := Reg.base_injective (j := r.base + k - q.base) (k := k) (by omega) hk (by omega)
    subst e
    simp

/-! ### One register -/

@[simp] theorem Reg.length_bytes (s : State) (r : Reg) : (r.bytes s).length = r.size := by
  cases r <;> rfl

theorem be16_half {bs : List Byte} (h : bs.length = 2) : be16 (half bs) = bs := by
  obtain ⟨a, b, rfl⟩ : ∃ a b, bs = [a, b] := List.length_eq_two.1 h
  exact be16_ofBe16 a b

theorem be32_word {bs : List Byte} (h : bs.length = 4) : be32 (word bs) = bs := by
  match bs, h with
  | [a, b, c, d], _ =>
    have e : word [a, b, c, d] = ofBe32 a b c d := rfl
    rw [e]
    have h0 : (ofBe32 a b c d).extractLsb' 24 8 = a := by
      apply BitVec.eq_of_getLsbD_eq
      intro i hi
      have h1 : ¬ 24 + i < 8 := by omega
      have h2 : ¬ 24 + i - 8 < 8 := by omega
      have h3 : ¬ 24 + i - 8 - 8 < 8 := by omega
      have h4 : 24 + i - 8 - 8 - 8 = i := by omega
      simp only [ofBe32, BitVec.getLsbD_extractLsb', BitVec.getLsbD_append, h1, h2, h3, h4, hi]
      simp
    have h1 : (ofBe32 a b c d).extractLsb' 16 8 = b := by
      apply BitVec.eq_of_getLsbD_eq
      intro i hi
      have h1 : ¬ 16 + i < 8 := by omega
      have h2 : ¬ 16 + i - 8 < 8 := by omega
      have h4 : 16 + i - 8 - 8 = i := by omega
      simp only [ofBe32, BitVec.getLsbD_extractLsb', BitVec.getLsbD_append, h1, h2, h4, hi]
      simp
    have h2 : (ofBe32 a b c d).extractLsb' 8 8 = c := by
      apply BitVec.eq_of_getLsbD_eq
      intro i hi
      have h1 : ¬ 8 + i < 8 := by omega
      have h4 : 8 + i - 8 = i := by omega
      simp only [ofBe32, BitVec.getLsbD_extractLsb', BitVec.getLsbD_append, h1, h4, hi]
      simp
    have h3 : (ofBe32 a b c d).extractLsb' 0 8 = d := by
      apply BitVec.eq_of_getLsbD_eq
      intro i hi
      simp only [ofBe32, BitVec.getLsbD_extractLsb', BitVec.getLsbD_append, Nat.zero_add, hi]
      simp
    simp [be32, h0, h1, h2, h3]

/-- A register reads as what was put into it; of `A_CTRL` bit 0 alone is kept (R35). -/
theorem Reg.bytes_put {s : State} {bs : List Byte} {r : Reg} (hr : r.readOnly = false)
    (hl : bs.length = r.size) :
    r.bytes (r.put s bs) = if r = .aCtrl then bs.map (· &&& 0x01#8) else bs := by
  cases r <;> simp only [Reg.readOnly, Bool.true_eq_false] at hr <;> simp only [Reg.size] at hl
  case crc | dtYear | aPort => exact be16_half hl
  case fEid | pVal => exact be32_word hl
  all_goals
    obtain ⟨b, rfl⟩ := List.length_eq_one_iff.1 hl
    first
      | rfl
      | simp [Reg.bytes, Reg.put, BitVec.and_assoc]

/-- Putting one register leaves every other as it was. -/
theorem Reg.bytes_put_other (s : State) (bs : List Byte) {r q : Reg} (h : q ≠ r) :
    q.bytes (r.put s bs) = q.bytes s := by
  cases r <;> cases q <;> first | rfl | exact absurd rfl h

theorem Reg.put_readOnly (s : State) (bs : List Byte) {r : Reg} (h : r.readOnly = true) :
    r.put s bs = s := by
  cases r <;> first | rfl | cases h

@[simp] theorem Reg.put_put (s : State) (bs : List Byte) (r : Reg) :
    r.put (r.put s bs) bs = r.put s bs := by cases r <;> rfl

variable (s : State) (bs : List Byte) (r : Reg)

@[simp] theorem Reg.put_mem : (r.put s bs).mem = s.mem := by cases r <;> rfl
@[simp] theorem Reg.put_params : (r.put s bs).params = s.params := by cases r <;> rfl
@[simp] theorem Reg.put_pending : (r.put s bs).pending = s.pending := by cases r <;> rfl
@[simp] theorem Reg.put_returned : (r.put s bs).returned = s.returned := by cases r <;> rfl
@[simp] theorem Reg.put_epoch : (r.put s bs).epoch = s.epoch := by cases r <;> rfl
@[simp] theorem Reg.put_engstat : (r.put s bs).engstat = s.engstat := by cases r <;> rfl
@[simp] theorem Reg.put_status : (r.put s bs).status = s.status := by cases r <;> rfl

@[simp] theorem Reg.put_fbuf (i : Nat) : (r.put s bs).fbuf i = s.fbuf i := by
  simp [State.fbuf, State.byteAt]

@[simp] theorem Reg.put_pdata (i : Nat) : (r.put s bs).pdata i = s.pdata i := by
  simp [State.pdata, State.byteAt]

@[simp] theorem Reg.bytes_writeFbuf (i : Nat) : r.bytes (s.writeFbuf i bs) = r.bytes s := by
  cases r <;> rfl

@[simp] theorem Reg.bytes_writePdata (i : Nat) : r.bytes (s.writePdata i bs) = r.bytes s := by
  cases r <;> rfl

/-! ### What a host write can do -/

/-- Everything a host write can do to the state, but for the command a write to `CMD` runs (R47). -/
theorem State.memWrite_cases (s : State) (a : Addr) (v : Byte) :
    (∃ r k, locate s.params a.toNat = .reg r k ∧ s.memWrite a v = r.put s ((r.bytes s).set k v)) ∨
    (∃ i, i < 128 ∧ a.toNat = 0x080 + i ∧ s.memWrite a v = s.writePdata i [v]) ∨
    (∃ i, i < 152 ∧ a.toNat = 0x100 + i ∧ s.memWrite a v = s.writeFbuf i [v]) ∨
    s.memWrite a v = s := by
  unfold State.memWrite
  cases h : locate s.params a.toNat with
  | reg r k => exact .inl ⟨r, k, rfl, rfl⟩
  | pdata i => exact .inr (.inl ⟨i, (locate_pdata h).2, (locate_pdata h).1, rfl⟩)
  | fbuf i => exact .inr (.inr (.inl ⟨i, (locate_fbuf h).2, (locate_fbuf h).1, rfl⟩))
  | reserved => exact .inr (.inr (.inr rfl))

variable (a : Addr) (v : Byte)

@[simp] theorem State.memWrite_params : (s.memWrite a v).params = s.params := by
  rcases s.memWrite_cases a v with ⟨r, k, -, e⟩ | ⟨i, -, -, e⟩ | ⟨i, -, -, e⟩ | e <;> rw [e] <;> simp

@[simp] theorem State.memWrite_pending : (s.memWrite a v).pending = s.pending := by
  rcases s.memWrite_cases a v with ⟨r, k, -, e⟩ | ⟨i, -, -, e⟩ | ⟨i, -, -, e⟩ | e <;> rw [e] <;> simp

@[simp] theorem State.memWrite_returned : (s.memWrite a v).returned = s.returned := by
  rcases s.memWrite_cases a v with ⟨r, k, -, e⟩ | ⟨i, -, -, e⟩ | ⟨i, -, -, e⟩ | e <;> rw [e] <;> simp

@[simp] theorem State.memWrite_epoch : (s.memWrite a v).epoch = s.epoch := by
  rcases s.memWrite_cases a v with ⟨r, k, -, e⟩ | ⟨i, -, -, e⟩ | ⟨i, -, -, e⟩ | e <;> rw [e] <;> simp

@[simp] theorem State.memWrite_engstat : (s.memWrite a v).engstat = s.engstat := by
  rcases s.memWrite_cases a v with ⟨r, k, -, e⟩ | ⟨i, -, -, e⟩ | ⟨i, -, -, e⟩ | e <;> rw [e] <;> simp

@[simp] theorem State.memWrite_status : (s.memWrite a v).status = s.status := by
  rcases s.memWrite_cases a v with ⟨r, k, -, e⟩ | ⟨i, -, -, e⟩ | ⟨i, -, -, e⟩ | e <;> rw [e] <;> simp

end Sys2Proof.Machine
end

