-- ==== Sys2Proof/Laws/Step.lean ====
section
/-! SUPPORT. What a step can do: bus words, host reads and writes, and the events of `pending`. -/

namespace Sys2Proof.Machine

/-! ### Bus words -/

theorem encodeBus_read_w (a : Addr) : (encodeBus (.read a)).getLsbD 18 = false := by
  simp only [encodeBus, BitVec.getLsbD_append]; simp

theorem encodeBus_write_w (a : Addr) (v : Byte) :
    (encodeBus (.write a v)).getLsbD 18 = true := by
  simp only [encodeBus, BitVec.getLsbD_append]; simp

/-- What the decoder gives for a word of either form (R68). -/
theorem decodeBus_cases (w : BusWord) :
    (w.getLsbD 18 = true ∧
      decodeBus w = some (.write (w.extractLsb' 8 10) (w.extractLsb' 0 8))) ∨
    (w.getLsbD 18 = false ∧ w.extractLsb' 0 8 = 0x00#8 ∧
      decodeBus w = some (.read (w.extractLsb' 8 10))) ∨
    (w.getLsbD 18 = false ∧ w.extractLsb' 0 8 ≠ 0x00#8 ∧ decodeBus w = none) := by
  cases h : w.getLsbD 18 with
  | true => exact .inl ⟨rfl, by simp only [decodeBus, BusWord.wellFormed, h, Bool.true_or, if_true]⟩
  | false =>
    by_cases h' : w.extractLsb' 0 8 = 0x00#8
    · refine .inr (.inl ⟨rfl, h', ?_⟩)
      simp only [decodeBus, BusWord.wellFormed, h, h', Bool.false_or, BEq.rfl, if_true,
        Bool.false_eq_true, if_false]
    · refine .inr (.inr ⟨rfl, h', ?_⟩)
      have e : (w.extractLsb' 0 8 == 0x00#8) = false := by simpa using h'
      simp only [decodeBus, BusWord.wellFormed, h, e, Bool.or_self, Bool.false_eq_true, if_false]

/-- A well-formed bus word is one the decoder takes. -/
theorem decodeBus_isSome {w : BusWord} (h : BusWord.wellFormed w = true) : ∃ op, decodeBus w = some op := by
  rcases decodeBus_cases w with ⟨-, e⟩ | ⟨-, -, e⟩ | ⟨h1, h2, -⟩
  · exact ⟨_, e⟩
  · exact ⟨_, e⟩
  · simp only [BusWord.wellFormed, h1, Bool.false_or, beq_iff_eq] at h
    exact absurd h h2

/-! ### The step -/

/-- Everything a step can do (R16, R41, R42, R50, R148, R165, R168). -/
theorem step_cases (s : State) :
    (s.pending = [] ∧ step s = .next s) ∨
    (∃ rest, s.pending = .reset :: rest ∧
      step s = .next { s with pending := rest }.resetEvent) ∨
    (∃ w rest, s.pending = .word w :: rest ∧ decodeBus w = none ∧
      step s = .refused .malformedBusWord) ∨
    (∃ w rest a, s.pending = .word w :: rest ∧
      (decodeBus w = some (.read a) ∨ ∃ v, decodeBus w = some (.write a v)) ∧
      busAllowed a s = false ∧ step s = .refused .hostProtocolViolation) ∨
    (∃ w rest a, s.pending = .word w :: rest ∧ decodeBus w = some (.read a) ∧
      busAllowed a s = true ∧ step s = .next (busRead a { s with pending := rest })) ∨
    (∃ w rest a v, s.pending = .word w :: rest ∧ decodeBus w = some (.write a v) ∧
      busAllowed a s = true ∧ step s = busWrite a v { s with pending := rest }) := by
  have hb : ∀ a rest, busAllowed a { s with pending := rest } = busAllowed a s := fun _ _ => rfl
  rcases hp : s.pending with _ | ⟨_ | _, rest⟩
  · exact .inl ⟨rfl, by simp [step, hostStep, hp]⟩
  · rename_i w
    rcases hd : decodeBus w with _ | ⟨a | ⟨a, v⟩⟩
    · exact .inr (.inr (.inl ⟨w, rest, rfl, hd, by simp [step, hostStep, hp, busStep, hd]⟩))
    · cases ha : busAllowed a s with
      | false =>
        exact .inr (.inr (.inr (.inl ⟨w, rest, a, rfl, .inl hd, ha,
          by simp [step, hostStep, hp, busStep, hd, hb, ha]⟩)))
      | true =>
        exact .inr (.inr (.inr (.inr (.inl ⟨w, rest, a, rfl, hd, ha,
          by simp [step, hostStep, hp, busStep, hd, hb, ha]⟩))))
    · cases ha : busAllowed a s with
      | false =>
        exact .inr (.inr (.inr (.inl ⟨w, rest, a, rfl, .inr ⟨v, hd⟩, ha,
          by simp [step, hostStep, hp, busStep, hd, hb, ha]⟩)))
      | true =>
        exact .inr (.inr (.inr (.inr (.inr ⟨w, rest, a, v, rfl, hd, ha,
          by simp [step, hostStep, hp, busStep, hd, hb, ha]⟩))))
  · exact .inr (.inl ⟨rest, rfl, by simp [step, hostStep, hp]⟩)

/-- A host write is a store, followed at `CMD` by the command (R16, R47, R148). -/
theorem busWrite_cases (a : Addr) (v : Byte) (s : State) :
    (a ≠ 0x000#10 ∧ busWrite a v s = .next (s.memWrite a v)) ∨
    (a = 0x000#10 ∧ ∃ i, decode v = some i ∧ busWrite a v s = exec i { s with cmd := v }) ∨
    (a = 0x000#10 ∧ decode v = none ∧
      busWrite a v s = .next (({ s with cmd := v } : State).fail .illegalCommand)) := by
  by_cases h : a = 0x000#10
  · subst h
    have hw : s.memWrite 0x000#10 v = { s with cmd := v } := rfl
    cases hd : decode v with
    | some i =>
      exact .inr (.inl ⟨rfl, i, rfl, by simp [busWrite, cmdAddr, runCommand, hd, hw]⟩)
    | none =>
      exact .inr (.inr ⟨rfl, rfl, by simp [busWrite, cmdAddr, runCommand, hd, hw, illegalCommand]⟩)
  · exact .inl ⟨h, by simp [busWrite, cmdAddr, h]⟩

/-- `withFetchWord` puts the command where the very next step runs it. -/
theorem withFetchWord_pending (s : State) (nbits w : Nat) :
    (s.withFetchWord nbits w).pending =
      .word (commandWord (BitVec.ofNat 8 (w % 2 ^ nbits))) :: s.pending := rfl

end Sys2Proof.Machine
end

