-- ==== Sys2Proof/Tests/Slice0.lean ====
section
/-! SUPPORT. Tests of one step each, their expected results taken from the spec's vectors (Parts 1 to 3 of
spec file 95), the refusals of the well-formedness checks, and a witness for every statement that has a
hypothesis. -/

namespace Sys2Proof.Tests

-- One theorem after another: Lean otherwise starts a thread per waiting kernel check.
set_option Elab.async false

open Sys2Proof Sys2Proof.Machine

/-! ### Building small states -/

/-- The next state, where there is one. -/
def next? : Host.Outcome State Fault Refusal → Option State
  | .next t => some t
  | .fault _ => none
  | .refused _ => none

/-- After reset, a frame in `FBUF` and its length in `FLEN`. -/
def framed (bs : List Byte) : State :=
  { State.reset.writeFbuf 0 bs with flen := BitVec.ofNat 8 bs.length }

/-- Cells at rising addresses from `a` on. -/
def cells (a : Nat) : List Byte → Memory
  | [] => []
  | b :: bs => (a, b) :: cells (a + 1) bs

/-- `framed`, with the memory written out, for frames of more than a hundred bytes. -/
def loaded (bs : List Byte) : State :=
  { State.reset with mem := cells 0x100 bs, flen := BitVec.ofNat 8 bs.length }

/-- After reset, a tag in `P_TYPE`, content in `P_DATA` and its length in `P_LEN`. -/
def content (t : Byte) (bs : List Byte) : State :=
  { State.reset.writePdata 0 bs with pType := t, pLen := BitVec.ofNat 8 bs.length }

/-- After reset, one bus word pending. -/
def withWord (w : BusWord) : State := { State.reset with pending := [.word w] }

/-- After reset, one bus word pending and a command in flight. -/
def busyWithWord (w : BusWord) : State := { withWord w with engstat := 0x01#8 }

/-- After reset of a block without the address unit, one bus word pending. -/
def noUnitWithWord (w : BusWord) : State :=
  { State.resetWith { crcInit := 0x0000#16, hasAddrUnit := false } with pending := [.word w] }

/-- V-E1, the Error frame of S1. -/
def errorFrame : List Byte :=
  [0x48#8, 0x58#8, 0x30#8, 0x43#8, 0x00#8, 0x00#8, 0x03#8, 0xAD#8, 0xE3#8]

/-- V-E3c. -/
def queryFrame : List Byte :=
  [0x48#8, 0x58#8, 0x30#8, 0x43#8, 0x02#8, 0x00#8, 0x12#8, 0x34#8, 0x56#8, 0x78#8, 0xB3#8, 0x29#8]

/-- V-E4c. -/
def epqueryFrame : List Byte :=
  [0x48#8, 0x58#8, 0x30#8, 0x43#8, 0x09#8, 0x00#8, 0x12#8, 0x34#8, 0x56#8, 0x78#8, 0x9E#8, 0x0C#8]

/-- V-E5f. -/
def infoFrame : List Byte :=
  [0x48#8, 0x58#8, 0x30#8, 0x43#8, 0x01#8, 0x00#8, 0x00#8, 0x00#8, 0x00#8, 0x01#8, 0x03#8, 0x12#8,
    0x34#8, 0x56#8, 0x78#8, 0xA4#8, 0x63#8]

/-- V-E9. -/
def writeFrame : List Byte :=
  [0x48#8, 0x58#8, 0x30#8, 0x43#8, 0x04#8, 0x00#8, 0x00#8, 0x00#8, 0x00#8, 0x07#8, 0x03#8, 0x12#8,
    0x34#8, 0x56#8, 0x78#8, 0xB7#8, 0x5D#8]

/-- V-E12 without its trailer: "Relay". -/
def epinfoBody : List Byte :=
  [0x48#8, 0x58#8, 0x30#8, 0x43#8, 0x09#8, 0x00#8, 0x00#8, 0x00#8, 0x00#8, 0x02#8, 0x03#8, 0x52#8,
    0x65#8, 0x6C#8, 0x61#8, 0x79#8] ++ List.replicate 61 0x00#8 ++ List.replicate 62 0x00#8

/-- V-E12. -/
def epinfoFrame : List Byte := epinfoBody ++ [0x66#8, 0x12#8]

/-- V-E12's registers. -/
def epinfoState : State :=
  { content 0x06#8 [0x52#8, 0x65#8, 0x6C#8, 0x61#8, 0x79#8] with fEid := 2#32, fDtype := 0x03#8 }

/-- V-E12's checksum, in three pieces. -/
theorem epinfo_checksum : checksum 0x0000#16 epinfoBody = 0x6612#16 := by
  unfold epinfoBody
  rw [checksum_append, checksum_append]
  have e1 : checksum 0x0000#16 [0x48#8, 0x58#8, 0x30#8, 0x43#8, 0x09#8, 0x00#8, 0x00#8, 0x00#8, 0x00#8,
      0x02#8, 0x03#8, 0x52#8, 0x65#8, 0x6C#8, 0x61#8, 0x79#8] = 0xA22F#16 := by decide +kernel
  have e2 : checksum 0xA22F#16 (List.replicate 61 0x00#8) = 0xD69E#16 := by decide +kernel
  rw [e1, e2]
  decide +kernel

/-- V-E12 loaded into the buffer passes the prologue of a decoder for kind `0x09`. -/
theorem epinfo_passes : (loaded epinfoFrame).passesPrologue 141 0x09#8 := by
  have split : ∀ s : State, ∀ n, s.flen.toNat - 2 = n →
      s.captured.crcCalc = checksum s.params.crcInit (s.fbufBytes 0 n) := by
    rintro s _ rfl; rfl
  have e : (loaded epinfoFrame).fbufBytes 0 139 = epinfoBody := by decide +kernel
  have p : (loaded epinfoFrame).params.crcInit = 0x0000#16 := rfl
  refine ⟨by decide +kernel, by decide +kernel, ⟨by decide +kernel, ?_⟩, by decide +kernel⟩
  rw [split _ 139 (by decide +kernel), e, p, epinfo_checksum]
  decide +kernel

/-- The DateTime of V-P8. -/
def dateTimeState : State :=
  { State.reset with
    pType := 0x04#8, dtHour := 13#8, dtMinute := 45#8, dtSecond := 30#8, dtDay := 12#8, dtMonth := 11#8
    dtYear := 2026#16, dtDow := 4#8 }

/-! ### Well-formedness -/

theorem test_addrNorm_needs_the_unit :
    Instr.wellFormed { crcInit := 0x0000#16, hasAddrUnit := false } .addrNorm = false := by decide

theorem test_read_word_with_data_is_ill_formed : BusWord.wellFormed 0x00301#19 = false := by decide

theorem test_poll_word_is_well_formed : BusWord.wellFormed 0x00300#19 = true := by decide

/-! ### Encodings, from words the spec writes out -/

/-- One command byte per family, from the rows of R66. -/
theorem test_command_bytes_decode :
    decode 0b00000000#8 = some .nop ∧ decode 0b00000010#8 = some .crcFeed ∧
    decode 0b00001001#8 = some .payDecode ∧ decode 0b00001111#8 = some .pktKind ∧
    decode 0b00010100#8 = some .encEpinfo ∧ decode 0b00100011#8 = some .decWrite ∧
    decode 0b00110000#8 = some .addrNorm := by decide

/-- Each other row of R66. -/
theorem test_other_command_bytes_decode :
    decode 0x01#8 = some .crcInit ∧ decode 0x03#8 = some .crcCompute ∧
    decode 0x04#8 = some .crcAppend ∧ decode 0x05#8 = some .crcVerify ∧
    decode 0x08#8 = some .payEncode ∧ decode 0x10#8 = some .encError ∧
    decode 0x11#8 = some .encInfo ∧ decode 0x12#8 = some .encQuery ∧ decode 0x13#8 = some .encWrite ∧
    decode 0x15#8 = some .encEpquery ∧ decode 0x20#8 = some .decError ∧
    decode 0x21#8 = some .decInfo ∧ decode 0x22#8 = some .decQuery ∧
    decode 0x24#8 = some .decEpinfo ∧ decode 0x25#8 = some .decEpquery := by decide

theorem test_table_word_decodes : decodeTableWord 8 0x12 = some .encQuery := by decide

theorem test_table_word_refuses_illegal : decodeTableWord 8 0x06 = none := by decide

/-- The first words of Program 1: `wr F_EID, 0x12` and `poll`. -/
theorem test_bus_words_decode :
    decodeBus 0x41012#19 = some (.write 0x010#10 0x12#8) ∧
    decodeBus 0x00300#19 = some (.read 0x003#10) := by decide

/-- Program 1's first three lines expand into its first six words. -/
theorem test_program1_head_assembles :
    assemble [.wr32 (.reg .fEid) 0x12345678#32, .cmd .encQuery, .poll] =
      some [0x41012#19, 0x41134#19, 0x41256#19, 0x41378#19, 0x40012#19, 0x00300#19] := by decide

/-! ### Steps -/

/-- V-N2: `0x06` written to `CMD`. -/
theorem test_illegal_command :
    (next? (step (withWord 0x40006#19))).map (fun t => (t.status, t.cmd)) =
      some (0x1F#8, 0x06#8) := by decide

/-- `withFetchWord` makes the very next step run the row's command (V-E3a). -/
theorem test_withFetchWord_runs_the_command :
    (next? (step (State.reset.withFetchWord 8 0x12))).map (fun t => (t.cmd, t.flen, t.status)) =
      some (0x12#8, 12#8, 0x00#8) := by decide +kernel

/-- V-M1: the lowest address holds the most significant byte. -/
theorem test_register_bytes_are_big_endian :
    (next? (step { withWord 0x01000#19 with fEid := 0x12345678#32 })).map (·.returned) =
      some [0x12#8] := by decide

/-- V-M2: a write to a read-only register is ignored. -/
theorem test_read_only_register_keeps_its_value :
    (next? (step (withWord 0x40155#19))).map (·.status) = some 0x00#8 := by decide

/-- V-M4: only bit 0 of `A_CTRL` is stored. -/
theorem test_a_ctrl_keeps_bit_0 :
    (State.reset.memWrite 0x024#10 0xFF#8).memRead 0x024#10 = 0x01#8 := by decide

/-- V-M5: without the unit `A_PORT` is reserved. -/
theorem test_a_port_without_unit :
    ((noUnitWithWord 0x42612#19).memWrite 0x026#10 0x12#8).memRead 0x026#10 = 0x00#8 := by decide

/-! ### Control, address and checksum commands -/

/-- V-N1. -/
theorem test_nop : (next? (exec .nop { State.reset with status := 0x02#8 })) = some State.reset := by
  decide

/-- V-A4's first run. -/
theorem test_addrNorm_default :
    (next? (exec .addrNorm { State.reset with aPort := 0x1234#16 })).map (fun t => (t.aCtrl, t.aPort)) =
      some (0x01#8, 0xF0B0#16) := by decide

/-- V-A3: a supplied port 0 is kept. -/
theorem test_addrNorm_keeps_port_0 :
    (next? (exec .addrNorm { State.reset with aCtrl := 0x01#8 })).map (fun t => (t.aCtrl, t.aPort)) =
      some (0x01#8, 0x0000#16) := by decide

/-- V-C1. -/
theorem test_crcInit :
    (next? (exec .crcInit { State.reset with crc := 0x1234#16 })).map (·.crc) = some 0x0000#16 := by
  decide

/-- V-C2. -/
theorem test_crcFeed :
    (next? (exec .crcFeed { State.reset with crcIn := 0x48#8 })).map (·.crc) = some 0xCE4C#16 := by
  decide +kernel

/-- V-C3. -/
theorem test_crcFeed_high_bits :
    (next? (exec .crcFeed { State.reset with crc := 0xFFFF#16, crcIn := 0xFF#8 })).map (·.crc) =
      some 0x00FF#16 := by decide +kernel

/-- V-C5. -/
theorem test_crcCompute :
    (next? (exec .crcCompute (framed [0x31#8, 0x32#8, 0x33#8, 0x34#8, 0x35#8, 0x36#8, 0x37#8, 0x38#8,
      0x39#8]))).map (fun t => (t.crcCalc, t.flen)) = some (0x2189#16, 9#8) := by decide +kernel

/-- V-C6. -/
theorem test_crcCompute_too_long :
    (next? (exec .crcCompute { State.reset with flen := 153#8, crcCalc := 0x5555#16 })).map
      (fun t => (t.status, t.crcCalc)) = some (0x11#8, 0x5555#16) := by decide +kernel

/-- V-C7. -/
theorem test_crcAppend :
    (next? (exec .crcAppend (framed [0x48#8, 0x58#8, 0x30#8, 0x43#8]))).map
      (fun t => (t.fbufBytes 0 6, t.flen, t.crcCalc)) =
      some ([0x48#8, 0x58#8, 0x30#8, 0x43#8, 0x70#8, 0x73#8], 6#8, 0x7073#16) := by decide +kernel

/-- V-C9: no room for the two bytes. -/
theorem test_crcAppend_overflow :
    (next? (exec .crcAppend { State.reset with flen := 151#8 })).map
      (fun t => (t.status, t.flen, t.mem)) = some (0x13#8, 151#8, []) := by decide +kernel

/-- V-C10. -/
theorem test_crcVerify :
    (next? (exec .crcVerify (framed errorFrame))).map (fun t => (t.status, t.crcCalc, t.crcRecv)) =
      some (0x00#8, 0xADE3#16, 0xADE3#16) := by decide +kernel

/-- V-C11. -/
theorem test_crcVerify_mismatch :
    (next? (exec .crcVerify (framed [0x48#8, 0x58#8, 0x30#8, 0x43#8, 0x00#8, 0x00#8, 0x03#8, 0xAD#8,
      0xE2#8]))).map (fun t => (t.status, t.crcCalc, t.crcRecv)) =
      some (0x02#8, 0xADE3#16, 0xADE2#16) := by decide +kernel

/-! ### Payload commands -/

/-- V-P8. -/
theorem test_payEncode_dateTime :
    (next? (exec .payEncode dateTimeState)).map (fun t => (t.fbufBytes 0 9, t.flen)) =
      some ([0x04#8, 0x0D#8, 0x2D#8, 0x1E#8, 0x0C#8, 0x0B#8, 0x07#8, 0xEA#8, 0x04#8], 9#8) := by
  decide +kernel

/-- V-P24: the string check comes before the capacity check. -/
theorem test_payEncode_string_before_capacity :
    (next? (exec .payEncode { State.reset with pType := 0x06#8, pLen := 200#8, flen := 140#8 })).map
      (·.status) = some 0x06#8 := by decide +kernel

/-- V-D14: the content ends at the first NUL. -/
theorem test_payDecode_string :
    (next? (exec .payDecode { loaded ([0x68#8, 0x69#8, 0x00#8] ++ List.replicate 125 0x7A#8) with
      pType := 0x06#8 })).map (fun t => (t.status, t.pLen, t.pdataBytes 2)) =
      some (0x00#8, 2#8, [0x68#8, 0x69#8]) := by decide +kernel

/-- V-D23: the length check comes before the value check. -/
theorem test_payDecode_length_before_value :
    (next? (exec .payDecode { framed [0x02#8, 0x00#8] with pType := 0x01#8 })).map (·.status) =
      some 0x08#8 := by decide +kernel

/-! ### Encoders -/

/-- V-E2. -/
theorem test_encError :
    (next? (exec .encError { State.reset with fFlags := 0x80#8, fErrcode := 0xFF#8 })).map
      (·.fbufBytes 0 9) =
      some [0x48#8, 0x58#8, 0x30#8, 0x43#8, 0x00#8, 0x80#8, 0xFF#8, 0x1C#8, 0xCC#8] := by
  decide +kernel

/-- V-E5f. -/
theorem test_encInfo :
    (next? (exec .encInfo
      { State.reset with fEid := 1#32, pType := 0x03#8, pVal := 0x12345678#32 })).map
      (fun t => (t.fbufBytes 0 17, t.flen)) = some (infoFrame, 17#8) := by decide +kernel

/-- V-E15: nothing but `STATUS` changes. -/
theorem test_encInfo_fails :
    next? (exec .encInfo { State.reset with pType := 0x09#8, pLen := 15#8 }) =
      some { State.reset with pType := 0x09#8, pLen := 15#8, status := 0x08#8 } := by decide +kernel

/-- V-E19: an encoder ignores the old `FLEN`. -/
theorem test_encQuery :
    (next? (exec .encQuery { State.reset with fEid := 5#32, flen := 200#8 })).map
      (fun t => (t.fbufBytes 0 12, t.flen)) =
      some ([0x48#8, 0x58#8, 0x30#8, 0x43#8, 0x02#8, 0x00#8, 0x00#8, 0x00#8, 0x00#8, 0x05#8, 0x83#8,
        0x74#8], 12#8) := by decide +kernel

/-- V-E9. -/
theorem test_encWrite :
    (next? (exec .encWrite
      { State.reset with fEid := 7#32, pType := 0x03#8, pVal := 0x12345678#32 })).map
      (fun t => (t.fbufBytes 0 17, t.flen)) = some (writeFrame, 17#8) := by decide +kernel

/-- V-E12. -/
theorem test_encEpinfo : exec .encEpinfo epinfoState = .next (finishFrame epinfoBody epinfoState) ∧
    (finishFrame epinfoBody epinfoState).flen = 141#8 ∧
    epinfoBody ++ be16 (checksum epinfoState.params.crcInit epinfoBody) = epinfoFrame := by
  refine ⟨?_, by decide +kernel, ?_⟩
  · show Host.Outcome.next (finishFrame _ epinfoState) = _
    congr 2
  · show epinfoBody ++ be16 (checksum 0x0000#16 epinfoBody) = _
    rw [epinfo_checksum]
    decide +kernel

/-- V-E4c. -/
theorem test_encEpquery :
    (next? (exec .encEpquery { State.reset with fEid := 0x12345678#32 })).map
      (fun t => (t.fbufBytes 0 12, t.flen)) = some (epqueryFrame, 12#8) := by decide +kernel

/-! ### Decoders and the classifier -/

/-- V-F1. -/
theorem test_decError :
    (next? (exec .decError (framed errorFrame))).map
      (fun t => (t.status, t.fErrcode, t.crcCalc, t.crcRecv)) =
      some (0x00#8, 0x03#8, 0xADE3#16, 0xADE3#16) := by decide +kernel

/-- V-F17. -/
theorem test_decInfo :
    (next? (exec .decInfo (framed infoFrame))).map
      (fun t => (t.fKind, t.fEid, t.fDtype, t.pType, t.pVal)) =
      some (0x01#8, 0x00000001#32, 0x03#8, 0x03#8, 0x12345678#32) := by decide +kernel

/-- V-F26: a Write frame, with the checksums already captured. -/
theorem test_decInfo_wrong_kind :
    (next? (exec .decInfo (framed writeFrame))).map (fun t => (t.status, t.crcCalc, t.crcRecv)) =
      some (0x12#8, 0xB75D#16, 0xB75D#16) := by decide +kernel

/-- V-F7. -/
theorem test_decQuery :
    (next? (exec .decQuery (framed queryFrame))).map (fun t => (t.fKind, t.fFlags, t.fEid)) =
      some (0x02#8, 0x00#8, 0x12345678#32) := by decide +kernel

/-- V-F14: the checksum is checked before the kind. -/
theorem test_decQuery_checksum_before_kind :
    (next? (exec .decQuery ((framed queryFrame).writeFbuf 4 [0x03#8]))).map
      (fun t => (t.status, t.crcCalc, t.crcRecv)) = some (0x02#8, 0xB702#16, 0xB329#16) := by
  decide +kernel

/-- V-F28. -/
theorem test_decWrite :
    (next? (exec .decWrite (framed writeFrame))).map (fun t => (t.fKind, t.fEid, t.fDtype, t.pVal)) =
      some (0x04#8, 0x00000007#32, 0x03#8, 0x12345678#32) := by decide +kernel

/-- V-F30: the description is taken up to its NUL, and byte 10 goes to `F_DTYPE`. -/
theorem test_decEpinfo : (next? (exec .decEpinfo (loaded epinfoFrame))).map
      (fun t => (t.fKind, t.fEid, t.fDtype, t.pType, t.pdataBytes 5)) =
    some (0x09#8, 0x00000002#32, 0x03#8, 0x06#8, [0x52#8, 0x65#8, 0x6C#8, 0x61#8, 0x79#8]) := by
  have e : decodePrologue .epInfo (loaded epinfoFrame) = .ok (loaded epinfoFrame).captured :=
    decodePrologue_ok epinfo_passes
  rw [exec_decEpinfo, decodeFrame, e]
  decide +kernel

/-- V-F32. -/
theorem test_decEpinfo_too_short :
    (next? (exec .decEpinfo (framed epqueryFrame))).map (·.status) = some 0x10#8 := by decide +kernel

/-- V-F15. -/
theorem test_decEpquery :
    (next? (exec .decEpquery (framed epqueryFrame))).map (fun t => (t.fKind, t.fEid)) =
      some (0x09#8, 0x12345678#32) := by decide +kernel

/-- V-F6's rule for the other fixed shape: 13 bytes are one too many (V-F11's length). -/
theorem test_decEpquery_too_long :
    (next? (exec .decEpquery (framed (epqueryFrame.take 10 ++ [0x00#8] ++
      be16 (checksum 0x0000#16 (epqueryFrame.take 10 ++ [0x00#8])))))).map (·.status) =
      some 0x11#8 := by decide +kernel

/-- V-K7: neither magic nor checksum is looked at. -/
theorem test_pktKind :
    (next? (exec .pktKind (framed [0x00#8, 0x00#8, 0x00#8, 0x00#8, 0x04#8]))).map
      (fun t => (t.status, t.fKind)) = some (0x00#8, 0x04#8) := by decide +kernel

/-- V-K8. -/
theorem test_pktKind_unknown :
    (next? (exec .pktKind { framed ([0x48#8, 0x58#8, 0x30#8, 0x43#8, 0x03#8] ++
      List.replicate 7 0x00#8) with fKind := 0x77#8 })).map (fun t => (t.status, t.fKind)) =
      some (0x03#8, 0x77#8) := by decide +kernel

/-! ### Witnesses: a state and operands for every hypothesis of a statement, at the edges of its ranges -/

theorem witness_CommandMapDecodesAsListed : ∀ b ∈ [0x06#8, 0x0A#8, 0x16#8, 0x26#8, 0x31#8, 0xFF#8],
    b ∉ [0x00#8, 0x01#8, 0x02#8, 0x03#8, 0x04#8, 0x05#8, 0x08#8, 0x09#8, 0x0F#8, 0x10#8, 0x11#8,
      0x12#8, 0x13#8, 0x14#8, 0x15#8, 0x20#8, 0x21#8, 0x22#8, 0x23#8, 0x24#8, 0x25#8, 0x30#8] := by
  decide

theorem witness_DecodeAndEncodeAgree : decode 0x30#8 = some .addrNorm ∧
    decodeBus 0x7FFFF#19 = some (.write 0x3FF#10 0xFF#8) ∧
    decodeBus 0x3FF00#19 = some (.read 0x3FF#10) := by decide

theorem witness_BusWordFieldsSelectTheTransaction :
    (0x40000#19 : BusWord).getLsbD 18 = true ∧
    ((0x3FF00#19 : BusWord).getLsbD 18 = false ∧
      (0x3FF00#19 : BusWord).extractLsb' 0 8 = 0x00#8) ∧
    ((withWord 0x00001#19).pending = .word 0x00001#19 :: [] ∧
      (0x00001#19 : BusWord).getLsbD 18 = false ∧
      (0x00001#19 : BusWord).extractLsb' 0 8 ≠ 0x00#8) := by decide

theorem witness_HostAssemblyExpandsAsTabled :
    (AsmAddr.abs 0x3FF).value < 1024 ∧ (AsmAddr.abs 0x3FE).value + 1 < 1024 ∧
    (AsmAddr.abs 0x3FC).value + 3 < 1024 ∧
    (AsmAddr.abs 0x3FE).value + [0x01#8, 0x02#8].length ≤ 1024 := by decide

theorem witness_StepRunsTheDecodedCommand :
    (withWord 0x40012#19).busy = false ∧ (withWord 0x40012#19).pending = .word 0x40012#19 :: [] ∧
    (0x40012#19 : BusWord).getLsbD 18 = true ∧
    (0x40012#19 : BusWord).extractLsb' 8 10 = 0x000#10 ∧
    decode ((0x40012#19 : BusWord).extractLsb' 0 8) = some .encQuery := by decide

theorem witness_IllegalCommandByteOnlyReports :
    (withWord 0x400FF#19).busy = false ∧ (withWord 0x400FF#19).pending = .word 0x400FF#19 :: [] ∧
    (0x400FF#19 : BusWord).getLsbD 18 = true ∧
    (0x400FF#19 : BusWord).extractLsb' 8 10 = 0x000#10 ∧
    (0x400FF#19 : BusWord).extractLsb' 0 8 = 0xFF#8 ∧ 0x31 ≤ (0xFF#8 : Byte).toNat := by decide

/-- The other ranges of illegal bytes, at their ends. -/
theorem witness_IllegalCommandByteOnlyReports_ranges :
    (0x0A ≤ (0x0A#8 : Byte).toNat ∧ (0x0E#8 : Byte).toNat ≤ 0x0E) ∧
    (0x16 ≤ (0x16#8 : Byte).toNat ∧ (0x1F#8 : Byte).toNat ≤ 0x1F) ∧
    (0x26 ≤ (0x26#8 : Byte).toNat ∧ (0x2F#8 : Byte).toNat ≤ 0x2F) ∧
    ((0x40030#19 : BusWord).extractLsb' 0 8 = 0x30#8 ∧
      (noUnitWithWord 0x40030#19).params.hasAddrUnit = false ∧
      (noUnitWithWord 0x40030#19).busy = false) := by decide

theorem witness_StepPerformsHostReadsAndWrites :
    ((withWord 0x3FF00#19).busy = false ∧ (withWord 0x3FF00#19).pending = .word 0x3FF00#19 :: [] ∧
      (0x3FF00#19 : BusWord).getLsbD 18 = false ∧
      (0x3FF00#19 : BusWord).extractLsb' 0 8 = 0x00#8) ∧
    ((withWord 0x40155#19).busy = false ∧ (withWord 0x40155#19).pending = .word 0x40155#19 :: [] ∧
      (0x40155#19 : BusWord).getLsbD 18 = true ∧
      (0x40155#19 : BusWord).extractLsb' 8 10 ≠ 0x000#10) := by decide

theorem witness_AccessWhileBusyIsRefused :
    ((busyWithWord 0x40000#19).busy = true ∧
      (busyWithWord 0x40000#19).pending = .word 0x40000#19 :: [] ∧ decodeBus 0x40000#19 ≠ none ∧
      (0x40000#19 : BusWord).extractLsb' 8 10 ≠ 0x003#10) ∧
    ((busyWithWord 0x00300#19).busy = true ∧
      (busyWithWord 0x00300#19).pending = .word 0x00300#19 :: [] ∧ decodeBus 0x00300#19 ≠ none ∧
      (0x00300#19 : BusWord).extractLsb' 8 10 = 0x003#10 ∧
      (0x00300#19 : BusWord).getLsbD 18 = false) ∧
    ((busyWithWord 0x403FF#19).busy = true ∧
      (busyWithWord 0x403FF#19).pending = .word 0x403FF#19 :: [] ∧ decodeBus 0x403FF#19 ≠ none ∧
      (0x403FF#19 : BusWord).extractLsb' 8 10 = 0x003#10 ∧
      (0x403FF#19 : BusWord).getLsbD 18 = true) := by decide

theorem witness_IdleBlockDoesNothing : State.reset.pending = [] := by decide

theorem witness_WindowReadsFollowTheRegisterMap :
    State.reset.params.hasAddrUnit = true ∧
    reservedAddr State.reset.params (0x198#10 : Addr).toNat ∧
    reservedAddr State.reset.params (0x07F#10 : Addr).toNat ∧
    reservedAddr State.reset.params (0x3FF#10 : Addr).toNat := by
  unfold reservedAddr; decide

theorem witness_WindowWriteChangesItsOwnByteOnly :
    (¬ readOnlyAddr (0x024#10 : Addr).toNat ∧
      ¬ reservedAddr State.reset.params (0x024#10 : Addr).toNat) ∧
    (¬ readOnlyAddr (0x197#10 : Addr).toNat ∧
      ¬ reservedAddr State.reset.params (0x197#10 : Addr).toNat) ∧
    (0x196#10 : Addr) ≠ 0x197#10 := by
  unfold readOnlyAddr reservedAddr; decide

theorem witness_ReservedSpaceReadsZeroAndIgnoresWrites :
    reservedAddr State.reset.params (0x00B#10 : Addr).toNat ∧
    reservedAddr State.reset.params (0x025#10 : Addr).toNat ∧
    reservedAddr { crcInit := 0x0000#16, hasAddrUnit := false } (0x024#10 : Addr).toNat := by
  unfold reservedAddr; decide

theorem witness_ReadOnlyRegistersIgnoreHostWrites :
    readOnlyAddr (0x001#10 : Addr).toNat ∧ readOnlyAddr (0x003#10 : Addr).toNat ∧
    readOnlyAddr (0x006#10 : Addr).toNat ∧ readOnlyAddr (0x009#10 : Addr).toNat := by
  unfold readOnlyAddr; decide

theorem witness_ReadsAndPlainWritesAreIdempotent :
    (withWord 0x00200#19).busy = false ∧ (withWord 0x00200#19).pending = .word 0x00200#19 :: [] ∧
    (0x00200#19 : BusWord).getLsbD 18 = false ∧
    (0x00200#19 : BusWord).extractLsb' 0 8 = 0x00#8 := by decide

theorem witness_UnwrittenBufferByteReadsAsFreeByte :
    (0x080 ≤ (0x080#10 : Addr).toNat ∧ (0x080#10 : Addr).toNat < 0x198 ∧
      Memory.byte? State.reset.mem (0x080#10 : Addr).toNat = none) ∧
    (0x080 ≤ (0x197#10 : Addr).toNat ∧ (0x197#10 : Addr).toNat < 0x198 ∧
      Memory.byte? (State.reset.writeFbuf 151 [0xAA#8]).mem (0x197#10 : Addr).toNat =
        some 0xAA#8) := by decide

theorem witness_ResetLeavesTheTabledValues :
    (0x07F#10 : Addr).toNat < 0x080 ∧ (0x07F#10 : Addr) ≠ 0x004#10 ∧ (0x07F#10 : Addr) ≠ 0x005#10 ∧
    (0x003#10 : Addr).toNat < 0x080 ∧ (0x003#10 : Addr) ≠ 0x004#10 ∧ (0x003#10 : Addr) ≠ 0x005#10 := by
  decide

/-- A reset while a command is in flight. -/
theorem witness_ResetEventRestoresTheResetState :
    ({ busyWithWord 0x00000#19 with pending := [.reset] } : State).pending = .reset :: [] ∧
    ({ busyWithWord 0x00000#19 with pending := [.reset] } : State).busy = true := by decide

/-- A state past reset that meets the invariant and from which a step is taken. -/
theorem witness_EveryStepKeepsTheInvariant :
    ∃ s t : State, s.Inv ∧ step s = .next t ∧ t.status = 0x1F#8 :=
  ⟨{ framed errorFrame with pending := [.word 0x40006#19] }, _,
    ⟨by decide +kernel, ⟨.ok, rfl⟩, rfl, .inl rfl, fun _ => ⟨rfl, rfl⟩⟩, rfl, rfl⟩

theorem witness_HonestHostIsNeverStopped :
    ∃ s : State, s.Inv ∧ s.hostWordsWellFormed ∧ s.pending ≠ [] :=
  ⟨withWord 0x40012#19,
    ⟨by decide, ⟨.ok, rfl⟩, rfl, .inl rfl, fun _ => ⟨rfl, rfl⟩⟩,
    fun w h => by
      have e : w = 0x40012#19 := by simpa [withWord] using h
      subst e; decide,
    by decide⟩

theorem witness_EngstatIsNeverBusyAndNeverWritten :
    State.reset.Inv ∧ exec .encError State.reset = .next (finishFrame
      (frameHeader .error State.reset ++ [State.reset.fErrcode]) State.reset) :=
  ⟨⟨by decide, ⟨.ok, rfl⟩, rfl, .inl rfl, fun _ => ⟨rfl, rfl⟩⟩, rfl⟩

/-- A failure that captured its checksums (V-C11) and one that did not (V-C13). -/
theorem witness_FailureWritesStatusAndCapturesOnly :
    (∃ t, exec .crcVerify (framed [0x12#8, 0x34#8]) = .next t ∧ t.status ≠ 0x00#8 ∧
      Instr.reachesChecksum .crcVerify (framed [0x12#8, 0x34#8])) ∧
    (∃ t, exec .crcVerify (framed [0x12#8]) = .next t ∧ t.status ≠ 0x00#8 ∧
      ¬ Instr.reachesChecksum .crcVerify (framed [0x12#8])) :=
  ⟨⟨_, rfl, by decide +kernel, .inl ⟨rfl, by decide, by decide⟩⟩,
    ⟨_, rfl, by decide +kernel, by
      rintro (⟨-, h, -⟩ | ⟨m, k, h, -⟩)
      · revert h; decide
      · simp [decoders] at h⟩⟩

theorem witness_CommandsReadNeitherStatusNorHostState :
    exec .crcInit State.reset = .next State.reset := rfl

/-- `NOP` is outside every write set that a clause names. -/
theorem witness_RegistersAreWrittenByTheirCommandsOnly :
    exec .nop State.reset = .next State.reset ∧ Instr.nop ∉ [Instr.crcInit, .crcFeed] ∧
    Instr.nop ∉ [Instr.payDecode, .decInfo, .decWrite, .decEpinfo] ∧ Instr.nop ≠ .addrNorm := by
  refine ⟨rfl, ?_⟩; decide

/-- Encoders are outside the `P_DATA` writers, decoders outside the `FBUF` writers. -/
theorem witness_BuffersAreWrittenByTheirCommandsOnly :
    (∃ t, exec .encQuery State.reset = .next t ∧ 0x100 + t.flen.toNat ≤ 0x10C) ∧
    Instr.encQuery ∉ [Instr.payDecode, .decInfo, .decWrite, .decEpinfo] ∧
    (∃ t, exec .decQuery State.reset = .next t) ∧
    Instr.decQuery ∉ [Instr.crcAppend, .payEncode, .encError, .encInfo, .encQuery, .encWrite,
      .encEpinfo, .encEpquery] :=
  ⟨⟨_, rfl, by decide +kernel⟩, by decide, ⟨_, rfl⟩, by decide⟩

theorem witness_AddrNormAppliesTheDefaultPort :
    (noUnitWithWord 0x40030#19).params.hasAddrUnit = false ∧
    (State.reset.params.hasAddrUnit = true ∧ State.reset.aCtrl.getLsbD 0 = false) ∧
    (({ State.reset with aCtrl := 0x01#8 } : State).params.hasAddrUnit = true ∧
      ({ State.reset with aCtrl := 0x01#8 } : State).aCtrl.getLsbD 0 = true) ∧
    (∃ t, exec .addrNorm State.reset = .next t) :=
  ⟨by decide, by decide, by decide, ⟨_, rfl⟩⟩

theorem witness_AbsentAddressUnitIsReserved :
    (noUnitWithWord 0x00000#19).params.hasAddrUnit = false ∧
    (0x024 ≤ (0x024#10 : Addr).toNat ∧ (0x024#10 : Addr).toNat ≤ 0x027) ∧
    (0x024 ≤ (0x027#10 : Addr).toNat ∧ (0x027#10 : Addr).toNat ≤ 0x027) := by decide

/-- A running register that holds the checksum of the bytes fed so far. -/
theorem witness_CrcFeedStreamsTheChecksum :
    (∃ t, exec .crcInit State.reset = .next t) ∧
    (State.reset.crc = checksum State.reset.params.crcInit [] ∧
      ∃ t, exec .crcFeed State.reset = .next t) :=
  ⟨⟨_, rfl⟩, rfl, ⟨_, rfl⟩⟩

theorem witness_CrcComputeChecksumsTheFrame :
    152 < ({ State.reset with flen := 153#8 } : State).flen.toNat ∧
    ({ State.reset with flen := 152#8 } : State).flen.toNat ≤ 152 := by decide

theorem witness_CrcAppendExtendsTheFrame :
    152 < ({ State.reset with flen := 153#8 } : State).flen.toNat ∧
    (150 < ({ State.reset with flen := 151#8 } : State).flen.toNat ∧
      ({ State.reset with flen := 151#8 } : State).flen.toNat ≤ 152) ∧
    ({ State.reset with flen := 150#8 } : State).flen.toNat ≤ 150 := by decide

theorem witness_CrcVerifyComparesAndCaptures :
    152 < ({ State.reset with flen := 153#8 } : State).flen.toNat ∧
    (framed [0x12#8]).flen.toNat < 2 ∧
    (2 ≤ (framed [0x00#8, 0x00#8]).flen.toNat ∧ (framed [0x00#8, 0x00#8]).flen.toNat ≤ 152) ∧
    checksum (0x0000#16) ((List.range (2 - 2)).map (framed [0x00#8, 0x00#8]).fbuf) =
      ofBe16 ((framed [0x00#8, 0x00#8]).fbuf 0) ((framed [0x00#8, 0x00#8]).fbuf 1) ∧
    checksum (0x0000#16) ((List.range (2 - 2)).map (framed [0x12#8, 0x34#8]).fbuf) ≠
      ofBe16 ((framed [0x12#8, 0x34#8]).fbuf 0) ((framed [0x12#8, 0x34#8]).fbuf 1) := by
  decide +kernel

theorem witness_PayloadBytesFollowTheTag :
    ((0x00#8 : Byte).toNat = 0 ∧ 9 < (0x0A#8 : Byte).toNat) ∧
    127 < ({ State.reset with pLen := 128#8 } : State).pLen.toNat ∧
    ({ State.reset with pLen := 127#8 } : State).pLen.toNat ≤ 127 ∧
    ({ State.reset with pLen := 64#8 } : State).pLen.toNat ≠ 65 ∧
    ({ State.reset with pLen := 65#8 } : State).pLen.toNat = 65 ∧
    ({ State.reset with pLen := 15#8 } : State).pLen.toNat ≠ 16 ∧
    ({ State.reset with pLen := 16#8 } : State).pLen.toNat = 16 := by decide

/-- Two states that agree on a DateTime's registers only. -/
theorem witness_PayloadEncodeReadsItsOperandsOnly :
    let u : State := { dateTimeState with pVal := 0xCAFEBABE#32, pLen := 0x55#8 }
    u.dtHour = dateTimeState.dtHour ∧ u.dtMinute = dateTimeState.dtMinute ∧
      u.dtSecond = dateTimeState.dtSecond ∧ u.dtDay = dateTimeState.dtDay ∧
      u.dtMonth = dateTimeState.dtMonth ∧ u.dtYear = dateTimeState.dtYear ∧
      u.dtDow = dateTimeState.dtDow ∧ u.pVal ≠ dateTimeState.pVal := by decide

theorem witness_PayloadValueChecksTagLengthValue :
    [0x05#8, 0x05#8].length ≠ 1 ∧ ((0x01#8 : Byte).toNat, 1) ∈ [(1, 1), (2, 1), (3, 4), (4, 8)] ∧
    (0x02#8 ≠ 0x00#8 ∧ 0x02#8 ≠ 0x01#8) ∧
    ((List.replicate 128 0x41#8).length = 128 ∧ 0x00#8 ∉ List.replicate 128 0x41#8) ∧
    ((List.replicate 127 0x41#8 ++ [0x00#8])[127]? = some 0x00#8 ∧
      ∀ j : Fin 127, (List.replicate 127 0x41#8 ++ [0x00#8])[j.val]? ≠ some 0x00#8) ∧
    (List.replicate 65 0xFF#8).length = 65 ∧ (List.replicate 16 0xFF#8).length = 16 := by
  decide +kernel

theorem witness_PayloadWritesItsVariantOnly : (List.replicate 128 0x41#8).length ≤ 128 := by
  decide +kernel

/-- V-P22, V-P21 and V-P17: no room, just room, and no variant. -/
theorem witness_PayEncodeAppendsTagAndBytes :
    (∃ pb, payloadBytes 0x03#8 State.reset = .ok pb ∧ 152 < (148#8 : Byte).toNat + 1 + pb.length ∧
      (147#8 : Byte).toNat + 1 + pb.length ≤ 152) ∧
    payloadBytes 0x00#8 State.reset = .error .unsupportedPayloadType ∧
    152 < (153#8 : Byte).toNat :=
  ⟨⟨_, rfl, by decide, by decide⟩, rfl, by decide⟩

/-- V-D7 and V-D8. -/
theorem witness_PayDecodeTakesTheWholeFrame :
    (∃ v, payloadValue 0x03#8 ((List.range 4).map (framed [0x12#8, 0x34#8, 0x56#8, 0x78#8]).fbuf) =
      .ok v) ∧
    payloadValue 0x03#8 ((List.range 3).map (framed [0x12#8, 0x34#8, 0x56#8]).fbuf) =
      .error .byteLengthInvalid ∧
    152 < (153#8 : Byte).toNat ∧ (152#8 : Byte).toNat ≤ 152 :=
  ⟨⟨_, rfl⟩, rfl, by decide, by decide⟩

/-- V-P3's round trip: the frame moved down past its tag. -/
theorem witness_PayloadRoundTrip :
    ∃ s t u : State, s.flen = 0x00#8 ∧ exec .payEncode s = .next t ∧ t.status = 0x00#8 ∧
      (s.pType = 0x06#8 → s.contentHasNoNul) ∧ u.pType = s.pType ∧
      u.flen.toNat + 1 = t.flen.toNat ∧ (∀ k, k < u.flen.toNat → u.fbuf k = t.fbuf (k + 1)) :=
  ⟨{ State.reset with pType := 0x03#8 }, _,
    { framed [0x00#8, 0x00#8, 0x00#8, 0x00#8] with pType := 0x03#8 }, rfl, rfl, rfl,
    fun h => absurd h (by decide), rfl, by decide +kernel, by decide +kernel⟩

/-- A string whose content holds no NUL ("hi"). -/
theorem witness_PayloadRoundTrip_string :
    ∃ bs, payloadBytes 0x06#8 (content 0x06#8 [0x68#8, 0x69#8]) = .ok bs ∧
      (content 0x06#8 [0x68#8, 0x69#8]).contentHasNoNul :=
  ⟨_, rfl, by unfold State.contentHasNoNul; decide +kernel⟩

/-- A string with a NUL at index 1 of 3. -/
theorem witness_PayloadRoundTrip_embedded_nul :
    (∃ bs, payloadBytes 0x06#8 (content 0x06#8 [0x68#8, 0x00#8, 0x69#8]) = .ok bs) ∧
    1 < (content 0x06#8 [0x68#8, 0x00#8, 0x69#8]).pLen.toNat ∧
    (content 0x06#8 [0x68#8, 0x00#8, 0x69#8]).pdata 1 = 0x00#8 ∧
    ∀ i, i < 1 → (content 0x06#8 [0x68#8, 0x00#8, 0x69#8]).pdata i ≠ 0x00#8 :=
  ⟨⟨_, rfl⟩, by decide +kernel⟩

theorem witness_FixedEncodersBuildTheirFrames :
    Instr.encQuery = .encQuery ∧ [0x48#8, 0x58#8, 0x30#8, 0x43#8, 0x02#8, 0x00#8, 0x00#8, 0x00#8,
      0x00#8, 0x00#8] = [0x48#8, 0x58#8, 0x30#8, 0x43#8, 0x02#8, State.reset.fFlags,
        State.reset.fEid.extractLsb' 24 8, State.reset.fEid.extractLsb' 16 8,
        State.reset.fEid.extractLsb' 8 8, State.reset.fEid.extractLsb' 0 8] := by decide

theorem witness_PayloadEncodersBuildTheirFrames :
    (∃ pb, payloadBytes 0x06#8 ({ State.reset with pLen := 127#8 }) = .ok pb) ∧
    payloadBytes 0x06#8 ({ State.reset with pLen := 128#8 }) = .error .stringTooLong :=
  ⟨⟨_, rfl⟩, rfl⟩

theorem witness_EncEpinfoBuildsTheDescriptionFrame :
    127 < ({ State.reset with pLen := 128#8 } : State).pLen.toNat ∧
    ({ State.reset with pLen := 127#8 } : State).pLen.toNat ≤ 127 := by decide

/-- V-E1 passes the prologue of `DEC_ERROR`; V-F4, V-F5 and V-F12 fail it where they should. -/
theorem witness_DecErrorParsesTheFrame :
    ((framed errorFrame).passesPrologue 9 0x00#8 ∧ (framed errorFrame).flen = 9#8) ∧
    ((framed queryFrame).frameVerifies ∧ (framed queryFrame).fbuf 4 ≠ 0x00#8 ∧
      (framed queryFrame).fbuf 4 ∈ [0x00#8, 0x01#8, 0x02#8, 0x04#8, 0x09#8]) ∧
    (((framed errorFrame).writeFbuf 6 [0x02#8]).captured.crcCalc ≠
      ((framed errorFrame).writeFbuf 6 [0x02#8]).captured.crcRecv) := by
  unfold State.passesPrologue State.frameVerifies; decide +kernel

/-- V-F6's frame: one byte too many, with its checksum. -/
theorem witness_DecErrorParsesTheFrame_length : ∃ s : State,
    s.passesPrologue 9 0x00#8 ∧ s.flen ≠ 9#8 :=
  ⟨{ framed ([0x48#8, 0x58#8, 0x30#8, 0x43#8, 0x00#8, 0x00#8, 0x03#8, 0x00#8] ++
      be16 (checksum 0x0000#16 [0x48#8, 0x58#8, 0x30#8, 0x43#8, 0x00#8, 0x00#8, 0x03#8, 0x00#8])) with
      fErrcode := 0x00#8 },
    by unfold State.passesPrologue State.frameVerifies; decide +kernel⟩

theorem witness_DecQueryAndEpqueryParseTheFrame :
    ((framed queryFrame).passesPrologue 12 0x02#8 ∧ (framed queryFrame).flen = 12#8) ∧
    ((framed epqueryFrame).passesPrologue 12 0x09#8 ∧ (framed epqueryFrame).flen = 12#8) ∧
    ((loaded epinfoFrame).passesPrologue 12 0x09#8 ∧ (loaded epinfoFrame).flen ≠ 12#8) := by
  refine ⟨?_, ?_, ⟨by decide +kernel, epinfo_passes.2⟩, by decide +kernel⟩ <;>
    unfold State.passesPrologue State.frameVerifies <;> decide +kernel

theorem witness_DecInfoAndWriteParseTheFrame :
    ((framed infoFrame).passesPrologue 14 0x01#8 ∧
      payloadValue ((framed infoFrame).fbuf 10)
        ((List.range (17 - 13)).map fun k => (framed infoFrame).fbuf (11 + k)) =
        .ok (.scalar 0x12345678#32)) ∧
    (framed writeFrame).passesPrologue 14 0x04#8 := by
  refine ⟨⟨?_, rfl⟩, ?_⟩ <;> unfold State.passesPrologue State.frameVerifies <;> decide +kernel

/-- V-F30. -/
theorem witness_DecEpinfoParsesTheDescription :
    ((loaded epinfoFrame).passesPrologue 141 0x09#8 ∧ (loaded epinfoFrame).flen = 141#8 ∧
      ((List.range (141 - 13)).map fun k => (loaded epinfoFrame).fbuf (11 + k))[5]? = some 0x00#8 ∧
      ∀ j, j < 5 →
        ((List.range (141 - 13)).map fun k => (loaded epinfoFrame).fbuf (11 + k))[j]? ≠
          some 0x00#8) := by
  refine ⟨epinfo_passes, ?_⟩
  decide +kernel

theorem witness_PktKindReportsTheKindByte :
    152 < ({ State.reset with flen := 160#8 } : State).flen.toNat ∧
    ({ State.reset with flen := 4#8 } : State).flen.toNat < 5 ∧
    (5 ≤ (framed errorFrame).flen.toNat ∧ (framed errorFrame).flen.toNat ≤ 152 ∧
      (framed errorFrame).fbuf 4 ∈ [0x00#8, 0x01#8, 0x02#8, 0x04#8, 0x09#8]) ∧
    ((framed errorFrame).writeFbuf 4 [0x03#8]).fbuf 4 ∉ [0x00#8, 0x01#8, 0x02#8, 0x04#8, 0x09#8] := by
  decide +kernel

theorem witness_FixedShapesRoundTrip : (∃ t, exec .encError State.reset = .next t) ∧
    (∃ t, exec .encQuery State.reset = .next t) ∧ (∃ t, exec .encEpquery State.reset = .next t) :=
  ⟨⟨_, rfl⟩, ⟨_, rfl⟩, ⟨_, rfl⟩⟩

theorem witness_PayloadShapesRoundTrip :
    (∃ t, exec .encInfo (content 0x06#8 [0x68#8, 0x69#8]) = .next t ∧ t.status = 0x00#8) ∧
    (content 0x06#8 [0x68#8, 0x69#8]).contentHasNoNul ∧
    (∃ t, exec .encEpinfo (content 0x06#8 [0x68#8, 0x69#8]) = .next t ∧ t.status = 0x00#8) :=
  ⟨⟨_, rfl, rfl⟩, by unfold State.contentHasNoNul; decide +kernel, ⟨_, rfl, rfl⟩⟩

/-- V-E1, first and last bit. -/
theorem witness_SingleBitCorruptionIsDetected :
    Instr.decError ∈ [Instr.decError, .decInfo, .decQuery, .decWrite, .decEpinfo, .decEpquery] ∧
    (∃ t, exec .decError (framed errorFrame) = .next t ∧ t.status = 0x00#8) ∧
    0 < (framed errorFrame).flen.toNat ∧ 8 < (framed errorFrame).flen.toNat :=
  ⟨by decide, ⟨_, rfl, by decide +kernel⟩, by decide, by decide⟩

end Sys2Proof.Tests
end

section
/-! The part of the state that no command writes, and `ENGSTAT` as the host sees it (R18). -/

namespace Sys2Proof.Machine

/-! ### What every command leaves as it was -/

/-- The fields that no command writes: `CMD`, `ENGSTAT` and `CRC_IN` (R16, R18, R23), the parameters, and
the host's side of the bus with the reset count. -/
def State.notByCommand (s : State) :
    Byte × Byte × Byte × Params × List HostEvent × List Byte × Nat :=
  (s.cmd, s.engstat, s.crcIn, s.params, s.pending, s.returned, s.epoch)

@[simp] theorem State.notByCommand_perform (s : State) (w : PayloadValue) :
    (s.perform w).notByCommand = s.notByCommand := by
  simp [State.notByCommand]

@[simp] theorem notByCommand_finishFrame (body : List Byte) (s : State) :
    (finishFrame body s).notByCommand = s.notByCommand := rfl

theorem encodePayloadFrame_notByCommand (sh : Shape) (s : State) :
    (encodePayloadFrame sh s).notByCommand = s.notByCommand := by
  rcases encodePayloadFrame_cases sh s with ⟨c, -, e⟩ | ⟨pb, -, -, e⟩ <;> rw [e]
  · rfl
  · exact notByCommand_finishFrame _ s

/-- A decode command writes what its own part writes, `STATUS` and the captured checksums. -/
theorem decodeFrame_notByCommand {rest : State → Except Status State}
    (hrest : ∀ t u, rest t = .ok u → u.notByCommand = t.notByCommand) (sh : Shape) (s : State) :
    (decodeFrame sh rest s).notByCommand = s.notByCommand := by
  rcases decodeFrame_cases sh rest s with
    ⟨c, -, -, e⟩ | ⟨c, -, -, e⟩ | ⟨c, -, -, e⟩ | ⟨u, -, hu, e⟩ <;> rw [e]
  case inr.inr.inr => exact hrest s.captured u hu
  all_goals rfl

theorem decodeErrorRest_notByCommand (t u : State) (h : decodeErrorRest t = .ok u) :
    u.notByCommand = t.notByCommand := by
  rcases decodeErrorRest_cases t with ⟨-, e⟩ | ⟨-, e⟩ <;> cases e.symm.trans h
  rfl

theorem decodeEidRest_notByCommand (sh : Shape) (t u : State) (h : decodeEidRest sh t = .ok u) :
    u.notByCommand = t.notByCommand := by
  rcases decodeEidRest_cases sh t with ⟨-, e⟩ | ⟨-, e⟩ <;> cases e.symm.trans h
  rfl

theorem decodePayloadRest_notByCommand (sh : Shape) (tag : Byte) (t u : State)
    (h : decodePayloadRest sh tag t = .ok u) : u.notByCommand = t.notByCommand := by
  rcases decodePayloadRest_cases sh tag t with ⟨c, -, e⟩ | ⟨w, -, e⟩ <;> cases e.symm.trans h
  exact State.notByCommand_perform _ w

/-- Every command answers a next state, which differs in the fields that commands write alone. -/
theorem exec_next_notByCommand (i : Instr) (s : State) :
    ∃ t, exec i s = .next t ∧ t.notByCommand = s.notByCommand := by
  cases i with
  | nop => exact ⟨_, exec_nop s, rfl⟩
  | crcInit => exact ⟨_, exec_crcInit s, rfl⟩
  | crcFeed => exact ⟨_, exec_crcFeed s, rfl⟩
  | encError => exact ⟨_, exec_encError s, notByCommand_finishFrame _ s⟩
  | encQuery => exact ⟨_, exec_encQuery s, notByCommand_finishFrame _ s⟩
  | encEpquery => exact ⟨_, exec_encEpquery s, notByCommand_finishFrame _ s⟩
  | crcCompute =>
    rcases exec_crcCompute_cases s with ⟨-, e⟩ | ⟨-, e⟩ <;> exact ⟨_, e, rfl⟩
  | crcAppend =>
    rcases exec_crcAppend_cases s with ⟨-, e⟩ | ⟨-, -, e⟩ | ⟨-, e⟩ <;> exact ⟨_, e, rfl⟩
  | crcVerify =>
    rcases exec_crcVerify_cases s with ⟨-, e⟩ | ⟨-, e⟩ | ⟨-, ⟨-, e⟩ | ⟨-, e⟩⟩ <;> exact ⟨_, e, rfl⟩
  | payEncode =>
    rcases exec_payEncode_cases s with
      ⟨-, e⟩ | ⟨-, ⟨c, -, e⟩ | ⟨pb, -, ⟨-, e⟩ | ⟨-, e⟩⟩⟩ <;> exact ⟨_, e, rfl⟩
  | payDecode =>
    rcases exec_payDecode_cases s with ⟨-, e⟩ | ⟨-, ⟨c, -, e⟩ | ⟨w, -, e⟩⟩
    · exact ⟨_, e, rfl⟩
    · exact ⟨_, e, rfl⟩
    · exact ⟨_, e, s.notByCommand_perform w⟩
  | pktKind =>
    rcases exec_pktKind_cases s with ⟨-, e⟩ | ⟨-, e⟩ | ⟨-, ⟨-, e⟩ | ⟨-, e⟩⟩ <;> exact ⟨_, e, rfl⟩
  | encInfo => exact ⟨_, exec_encInfo s, encodePayloadFrame_notByCommand _ s⟩
  | encWrite => exact ⟨_, exec_encWrite s, encodePayloadFrame_notByCommand _ s⟩
  | encEpinfo =>
    rcases exec_encEpinfo_cases s with ⟨-, e⟩ | ⟨sb, -, -, -, e⟩
    · exact ⟨_, e, rfl⟩
    · exact ⟨_, e, notByCommand_finishFrame _ s⟩
  | decError =>
    exact ⟨_, exec_decError s, decodeFrame_notByCommand decodeErrorRest_notByCommand _ s⟩
  | decInfo =>
    exact ⟨_, exec_decInfo s,
      decodeFrame_notByCommand (fun t => decodePayloadRest_notByCommand _ (t.fbuf 10) t) _ s⟩
  | decQuery =>
    exact ⟨_, exec_decQuery s, decodeFrame_notByCommand (decodeEidRest_notByCommand _) _ s⟩
  | decWrite =>
    exact ⟨_, exec_decWrite s,
      decodeFrame_notByCommand (fun t => decodePayloadRest_notByCommand _ (t.fbuf 10) t) _ s⟩
  | decEpinfo =>
    exact ⟨_, exec_decEpinfo s, decodeFrame_notByCommand (decodePayloadRest_notByCommand _ _) _ s⟩
  | decEpquery =>
    exact ⟨_, exec_decEpquery s, decodeFrame_notByCommand (decodeEidRest_notByCommand _) _ s⟩
  | addrNorm =>
    rcases exec_addrNorm_cases s with ⟨-, e⟩ | ⟨-, ⟨-, e⟩ | ⟨-, e⟩⟩ <;> exact ⟨_, e, rfl⟩

theorem exec_notByCommand {i : Instr} {s t : State} (h : exec i s = .next t) :
    t.notByCommand = s.notByCommand := by
  obtain ⟨u, e, hu⟩ := exec_next_notByCommand i s
  cases e.symm.trans h
  exact hu

theorem exec_engstat {i : Instr} {s t : State} (h : exec i s = .next t) : t.engstat = s.engstat :=
  congrArg (·.2.1) (exec_notByCommand h)

/-! ### `ENGSTAT` at the window -/

theorem State.memRead_engstat (s : State) : s.memRead 0x003#10 = s.engstat &&& 0x01#8 := by
  have hloc : locate s.params (0x003#10).toNat = .reg .engstat 0 :=
    locate_of_reg (r := .engstat) rfl Nat.zero_lt_one
  rw [State.memRead, hloc]
  rfl

/-- The reserved bits 7:1 of `ENGSTAT` read 0 (R18, R52). -/
theorem State.memRead_engstat_reserved (s : State) : s.memRead 0x003#10 &&& 0xFE#8 = 0x00#8 := by
  rw [s.memRead_engstat, BitVec.and_assoc]
  exact BitVec.and_zero

theorem State.memRead_engstat_busy (s : State) : (s.memRead 0x003#10).getLsbD 0 = s.busy := by
  simp [s.memRead_engstat, State.busy]

end Sys2Proof.Machine

namespace Sys2Proof

open Sys2Proof.Machine

/-- Settles O21: the invariant holds `ENGSTAT` at 0, the window masks its reserved bits, and the field is
outside what a command or a store can write. -/
theorem engstatIsNeverBusyAndNeverWritten : Obligations.EngstatIsNeverBusyAndNeverWritten := by
  refine ⟨fun s hs => ?_, fun s => ⟨s.memRead_engstat_reserved, s.memRead_engstat_busy⟩,
    fun i s t => exec_engstat, State.memWrite_engstat, fun p => rfl⟩
  rw [s.memRead_engstat, hs.engstat]
  rfl

end Sys2Proof
end

section
/-! Host access to the window: reserved space (R52, R59), and reads and writes made twice (R50). -/

namespace Sys2Proof.Machine

/-! ### Reserved addresses -/

/-- No register byte that exists stands at a reserved address (R44, R52, R59). -/
theorem Reg.not_reservedAddr {p : Params} {r : Reg} {k : Nat} (hp : r.present p = true)
    (hk : k < r.size) : ¬ reservedAddr p (r.base + k) := by
  unfold reservedAddr
  cases r <;> simp only [Reg.base, Reg.size, Reg.present] at hp hk ⊢
  case aCtrl | aPort => simp only [hp, Bool.true_eq_false, false_and, or_false]; omega
  all_goals omega

theorem locate_of_reservedAddr {p : Params} {a : Nat} (h : reservedAddr p a) :
    locate p a = .reserved := by
  cases hloc : locate p a with
  | reserved => rfl
  | reg r k =>
    obtain ⟨hp, rfl, hk⟩ := locate_reg hloc
    exact absurd h (Reg.not_reservedAddr hp hk)
  | pdata i =>
    obtain ⟨rfl, hi⟩ := locate_pdata hloc
    unfold reservedAddr at h
    omega
  | fbuf i =>
    obtain ⟨rfl, hi⟩ := locate_fbuf hloc
    unfold reservedAddr at h
    omega

variable {s : State} {a : Addr}

theorem State.memRead_of_reservedAddr (h : reservedAddr s.params a.toNat) :
    s.memRead a = 0x00#8 := by
  rw [State.memRead, locate_of_reservedAddr h]
  rfl

theorem State.memWrite_of_reservedAddr (h : reservedAddr s.params a.toNat) (v : Byte) :
    s.memWrite a v = s := by
  rw [State.memWrite, locate_of_reservedAddr h]
  rfl

/-- Without the address unit the four bytes of `A_CTRL` and `A_PORT` are reserved (R59). -/
theorem reservedAddr_of_no_unit {p : Params} {n : Nat} (hp : p.hasAddrUnit = false)
    (lo : 0x024 ≤ n) (hi : n ≤ 0x027) : reservedAddr p n := by
  simp [reservedAddr, hp, lo, hi]

/-! ### Reserved bits -/

/-- A host write to a byte of a read-only register is ignored (R47). -/
theorem State.memWrite_of_readOnly {r : Reg} {k : Nat} (hloc : locate s.params a.toNat = .reg r k)
    (hr : r.readOnly = true) (v : Byte) : s.memWrite a v = s := by
  rw [State.memWrite, hloc]
  exact Reg.put_readOnly s _ hr

theorem locate_aCtrl {p : Params} (hp : p.hasAddrUnit = true) :
    locate p (0x024#10 : Addr).toNat = .reg .aCtrl 0 :=
  locate_of_reg (r := .aCtrl) hp Nat.zero_lt_one

/-- The reserved bits 7:1 of `A_CTRL` read 0, as the whole byte does without the unit (R52, R59). -/
theorem State.memRead_aCtrl_reserved (s : State) : s.memRead 0x024#10 &&& 0xFE#8 = 0x00#8 := by
  cases hp : s.params.hasAddrUnit with
  | false =>
    rw [State.memRead_of_reservedAddr (reservedAddr_of_no_unit hp (by decide) (by decide))]
    exact BitVec.zero_and
  | true =>
    have hread : s.memRead 0x024#10 = s.aCtrl &&& 0x01#8 := by
      rw [State.memRead, locate_aCtrl hp]
      rfl
    rw [hread, BitVec.and_assoc]
    exact BitVec.and_zero

/-- Of a byte written to `A_CTRL` bit 0 alone counts (R35, R52). -/
theorem State.memWrite_aCtrl_bit0 (s : State) (v : Byte) :
    s.memWrite 0x024#10 v = s.memWrite 0x024#10 (v &&& 0x01#8) := by
  cases hp : s.params.hasAddrUnit with
  | false =>
    have hres := reservedAddr_of_no_unit (n := (0x024#10 : Addr).toNat) hp (by decide) (by decide)
    rw [State.memWrite_of_reservedAddr hres, State.memWrite_of_reservedAddr hres]
  | true =>
    have hwrite (b : Byte) : s.memWrite 0x024#10 b = { s with aCtrl := b &&& 0x01#8 } := by
      rw [State.memWrite, locate_aCtrl hp]
      rfl
    rw [hwrite, hwrite, BitVec.and_assoc, BitVec.and_self]

/-! ### Reads -/

/-- What a host read returns does not depend on what is still to be delivered. -/
theorem State.memRead_pending (s : State) (rest : List HostEvent) (a : Addr) :
    ({ s with pending := rest } : State).memRead a = s.memRead a := by
  unfold State.memRead
  cases locate s.params a.toNat with
  | reg r k => cases r <;> rfl
  | pdata i => rfl
  | fbuf i => rfl
  | reserved => rfl

/-- The decoder takes a read word with no data as the read of its address (R68). -/
theorem decodeBus_of_read {w : BusWord} (hw : w.getLsbD 18 = false)
    (hd : w.extractLsb' 0 8 = 0x00#8) : decodeBus w = some (.read (w.extractLsb' 8 10)) := by
  rcases decodeBus_cases w with ⟨hw', -⟩ | ⟨-, -, e⟩ | ⟨-, hd', -⟩
  · exact absurd (hw.symm.trans hw') Bool.false_ne_true
  · exact e
  · exact absurd hd hd'

/-- Delivering a read word while the block is not busy is the host read (R42, R47, R168). -/
theorem step_of_read {w : BusWord} {rest : List HostEvent} (hp : s.pending = .word w :: rest)
    (hd : decodeBus w = some (.read a)) (hb : s.busy = false) :
    step s = .next (busRead a { s with pending := rest }) := by
  have hallowed : busAllowed a { s with pending := rest } = true := by
    have hb' : ({ s with pending := rest } : State).busy = false := hb
    rw [busAllowed, hb']
    rfl
  simp [step, hostStep, hp, busStep, hd, hallowed]

/-! ### Writes made twice -/

/-- Putting a register again forgets what was put before. -/
theorem Reg.put_overwrite (s : State) (bs cs : List Byte) (r : Reg) :
    r.put (r.put s bs) cs = r.put s cs := by cases r <;> rfl

/-- Storing a byte of a register twice is storing it once: the register reads back what was put, but for
`A_CTRL`, which masks it each time (R35). -/
theorem Reg.put_set_bytes_twice (s : State) (r : Reg) (k : Nat) (v : Byte) :
    r.put s ((r.bytes (r.put s ((r.bytes s).set k v))).set k v) =
      r.put s ((r.bytes s).set k v) := by
  cases hr : r.readOnly with
  | true => simp only [Reg.put_readOnly _ _ hr]
  | false =>
    rw [Reg.bytes_put hr (by simp)]
    split
    · next h =>
      subst h
      cases k with
      | zero => rfl
      | succ k => simp [Reg.put, Reg.bytes, BitVec.and_assoc]
    · rw [List.set_set]

theorem State.writePdata_writePdata (s : State) (i : Nat) (v : Byte) :
    (s.writePdata i [v]).writePdata i [v] = s.writePdata i [v] := by
  simp [State.writePdata, Memory.storeRun, Memory.store_store]

theorem State.writeFbuf_writeFbuf (s : State) (i : Nat) (v : Byte) :
    (s.writeFbuf i [v]).writeFbuf i [v] = s.writeFbuf i [v] := by
  simp [State.writeFbuf, Memory.storeRun, Memory.store_store]

theorem Loc.write_write (s : State) (v : Byte) (l : Loc) : l.write (l.write s v) v = l.write s v := by
  cases l with
  | reg r k => exact (Reg.put_overwrite s _ _ r).trans (Reg.put_set_bytes_twice s r k v)
  | pdata i => exact s.writePdata_writePdata i v
  | fbuf i => exact s.writeFbuf_writeFbuf i v
  | reserved => rfl

/-- Storing the same byte twice is storing it once, at every address (R50). -/
theorem State.memWrite_memWrite (s : State) (a : Addr) (v : Byte) :
    (s.memWrite a v).memWrite a v = s.memWrite a v := by
  rw [State.memWrite, State.memWrite_params]
  exact Loc.write_write s v _

/-! ### A command run twice -/

/-- Where `CRC_FEED` changes `CRC`, a second one changes it again: the byte step is injective, so it keeps
the new value only if it kept the old one. -/
theorem exec_crcFeed_again (h : crcByte s.crc s.crcIn ≠ s.crc) :
    ∃ t u, exec .crcFeed s = .next t ∧ exec .crcFeed t = .next u ∧ u ≠ t :=
  ⟨_, _, exec_crcFeed s, exec_crcFeed _, fun e => h (crcByte_injective (congrArg State.crc e))⟩

end Sys2Proof.Machine

namespace Sys2Proof

open Sys2Proof.Machine

/-- Settles O12: a reserved address stands at no register or buffer byte, `ENGSTAT` is read-only, and
`A_CTRL` is masked both when read and when written. -/
theorem reservedSpaceReadsZeroAndIgnoresWrites : Obligations.ReservedSpaceReadsZeroAndIgnoresWrites := by
  refine ⟨fun s a v h => ⟨State.memRead_of_reservedAddr h, State.memWrite_of_reservedAddr h v⟩,
    fun s => ⟨s.memRead_engstat_reserved, s.memRead_aCtrl_reserved⟩,
    fun s v => ⟨?_, s.memWrite_aCtrl_bit0 v⟩⟩
  have hloc : locate s.params (0x003#10 : Addr).toNat = .reg .engstat 0 :=
    locate_of_reg (r := .engstat) rfl Nat.zero_lt_one
  exact State.memWrite_of_readOnly hloc rfl v

/-- Settles O14: a read step is `busRead`, a second store of a byte finds it there, and from reset with
`CRC_IN` = 1 `CRC_FEED` changes `CRC` each time it runs. -/
theorem readsAndPlainWritesAreIdempotent : Obligations.ReadsAndPlainWritesAreIdempotent := by
  refine ⟨fun s w rest hb hp hw hd => ?_, State.memWrite_memWrite,
    { State.reset with crcIn := 0x01#8 }, exec_crcFeed_again (by decide)⟩
  rw [step_of_read hp (decodeBus_of_read hw hd) hb, busRead, State.memRead_pending]

/-- Settles O29: the four addresses are reserved, and `ADDR_NORM` looks for the unit before anything
else. -/
theorem absentAddressUnitIsReserved : Obligations.AbsentAddressUnitIsReserved := by
  intro s hp
  refine ⟨fun a v lo hi => ?_, ?_⟩
  · have hres := reservedAddr_of_no_unit hp lo hi
    exact ⟨State.memRead_of_reservedAddr hres, State.memWrite_of_reservedAddr hres v⟩
  · rcases exec_addrNorm_cases s with ⟨-, e⟩ | ⟨hunit, -⟩
    · exact e
    · exact absurd (hp.symm.trans hunit) Bool.false_ne_true

end Sys2Proof
end

section
/-! The command map (R66): which bytes are commands. -/

namespace Sys2Proof.Machine

/-- The opcode column of R66. -/
def commandBytes : List Byte :=
  [0x00#8, 0x01#8, 0x02#8, 0x03#8, 0x04#8, 0x05#8, 0x08#8, 0x09#8, 0x0F#8, 0x10#8, 0x11#8,
    0x12#8, 0x13#8, 0x14#8, 0x15#8, 0x20#8, 0x21#8, 0x22#8, 0x23#8, 0x24#8, 0x25#8, 0x30#8]

theorem encode_mem_commandBytes (i : Instr) : encode i ∈ commandBytes := by
  cases i <;> decide

/-- A byte that decodes is the command byte of what it decodes to (R63). -/
theorem encode_of_decode {b : Byte} {i : Instr} (h : decode b = some i) : encode i = b := by
  unfold decode at h
  split at h <;> cases h
  all_goals
    next hb => exact BitVec.eq_of_toNat_eq hb.symm

/-- A byte outside the map is illegal (R67). -/
theorem decode_eq_none_of_not_mem {b : Byte} (hb : b ∉ commandBytes) : decode b = none :=
  Option.eq_none_iff_forall_ne_some.mpr fun i h =>
    hb (encode_of_decode h ▸ encode_mem_commandBytes i)

end Sys2Proof.Machine

namespace Sys2Proof

open Sys2Proof.Machine Sys2Proof.Laws.EncodingRow

/-- Settles O1: a listed byte is the `encode` of its row's command, which decodes back to it; and a byte
that decodes to a command is that command's `encode`, so it is listed. -/
theorem commandMapDecodesAsListed : Obligations.CommandMapDecodesAsListed :=
  ⟨nop.1, crcInit.1, crcFeed.1, crcCompute.1, crcAppend.1, crcVerify.1, payEncode.1, payDecode.1,
    pktKind.1, encError.1, encInfo.1, encQuery.1, encWrite.1, encEpinfo.1, encEpquery.1,
    decError.1, decInfo.1, decQuery.1, decWrite.1, decEpinfo.1, decEpquery.1, addrNorm.1,
    fun _ => decode_eq_none_of_not_mem⟩

end Sys2Proof
end

section
/-! The Checksum Engine (spec file 40): the byte step, and the frame before and after its trailer. -/

namespace Sys2Proof.Machine

/-! ### The byte step -/

theorem crcShifts_eq_iterate (n : Nat) (c : Half) : crcShifts n c = crcShift^[n] c := by
  induction n generalizing c with
  | zero => rfl
  | succ n ih => exact ih (crcShift c)

/-! ### The frame of `FLEN` bytes -/

variable {s : State}

theorem State.fbufBytes_zero (s : State) (n : Nat) :
    s.fbufBytes 0 n = (List.range n).map s.fbuf := by
  simp only [State.fbufBytes, Nat.zero_add]

/-- A frame of at least two and at most 152 bytes whose trailer is its checksum verifies (R92). -/
theorem exec_crcVerify_ok (lo : 2 ≤ s.flen.toNat) (hi : s.flen.toNat ≤ 152)
    (heq : s.captured.crcCalc = s.captured.crcRecv) :
    exec .crcVerify s = .next s.captured.commit := by
  rcases exec_crcVerify_cases s with ⟨h, -⟩ | ⟨h, -⟩ | ⟨-, ⟨hne, -⟩ | ⟨-, e⟩⟩
  · omega
  · omega
  · exact absurd heq hne
  · exact e

/-! ### The frame with its checksum appended -/

/-- The state after a `CRC_APPEND` that has room for the trailer (R91). -/
def State.appended (s : State) : State :=
  { s.writeFbuf s.flen.toNat (be16 (s.checksumTo s.flen.toNat)) with
    crcCalc := s.checksumTo s.flen.toNat
    flen := s.flen + 2#8
    status := Status.ok.code }

theorem exec_crcAppend_ok (h : s.flen.toNat ≤ 150) : exec .crcAppend s = .next s.appended := by
  rcases exec_crcAppend_cases s with ⟨h', -⟩ | ⟨h', -, -⟩ | ⟨-, e⟩
  · omega
  · omega
  · rw [BitVec.ofNat_add, BitVec.ofNat_toNat, BitVec.setWidth_eq] at e
    exact e

theorem State.appended_flen_toNat (h : s.flen.toNat ≤ 150) :
    s.appended.flen.toNat = s.flen.toNat + 2 := by
  have hadd : s.appended.flen.toNat = (s.flen.toNat + 2) % 256 := BitVec.toNat_add s.flen 2#8
  omega

/-- The trailer stands after the frame, so the frame's checksum is as before. -/
theorem State.appended_checksumTo (s : State) :
    s.appended.checksumTo s.flen.toNat = s.checksumTo s.flen.toNat := by
  refine congrArg (checksum s.params.crcInit) (State.fbufBytes_congr fun k hk => ?_)
  exact s.fbuf_writeFbuf_outside s.flen.toNat (0 + k) _ (by omega)

theorem State.appended_trailer (s : State) :
    s.appended.trailer (s.flen.toNat + 2) = s.checksumTo s.flen.toNat := by
  have hbyte := s.fbuf_writeFbuf_inside s.flen.toNat (bs := be16 (s.checksumTo s.flen.toNat))
  have hhi : s.appended.fbuf s.flen.toNat = _ := hbyte 0 Nat.zero_lt_two
  have hlo : s.appended.fbuf (s.flen.toNat + 1) = _ := hbyte 1 Nat.one_lt_two
  have hsub : s.flen.toNat + 2 - 1 = s.flen.toNat + 1 := rfl
  rw [State.trailer, Nat.add_sub_cancel, hsub, hhi, hlo]
  exact ofBe16_extract _

theorem State.appended_captured (h : s.flen.toNat ≤ 150) :
    s.appended.captured = { s.appended with crcRecv := s.checksumTo s.flen.toNat } := by
  rw [← capture_eq_captured, State.appended_flen_toNat h, Nat.add_sub_cancel, s.appended_checksumTo,
    s.appended_trailer]
  rfl

/-- A `CRC_VERIFY` right after a `CRC_APPEND` gives `OK` (R91). -/
theorem exec_crcVerify_appended (h : s.flen.toNat ≤ 150) :
    exec .crcVerify s.appended =
      .next { s.appended with crcRecv := s.checksumTo s.flen.toNat } := by
  have hlen := State.appended_flen_toNat h
  have hcap := State.appended_captured h
  have e := exec_crcVerify_ok (s := s.appended) (by omega) (by omega) (by rw [hcap]; rfl)
  rw [hcap] at e
  exact e

end Sys2Proof.Machine

namespace Sys2Proof

open Sys2Proof.Machine Sys2Proof.Laws.EncodingRow

/-- Settles O35: with room for it the trailer is stored behind the frame, where it leaves the frame's
checksum as it was and reads back as that checksum. -/
theorem crcAppendExtendsTheFrame : Obligations.CrcAppendExtendsTheFrame := by
  refine ⟨crcAppend.1, fun s => ⟨fun h => ?_, fun lo hi => ?_, fun h => ?_⟩⟩
  · rcases exec_crcAppend_cases s with ⟨-, e⟩ | ⟨-, h', -⟩ | ⟨h', -⟩
    · exact e
    · omega
    · omega
  · rcases exec_crcAppend_cases s with ⟨h', -⟩ | ⟨-, -, e⟩ | ⟨h', -⟩
    · omega
    · exact e
    · omega
  · rw [← s.fbufBytes_zero]
    exact ⟨s.appended.mem, exec_crcAppend_ok h, Memory.storesRun_storeRun _ _ _,
      exec_crcVerify_appended h⟩

/-- Settles O30: `crcShifts 8` is the eighth iterate of the shift step. -/
theorem crcByteIsOneXorAndEightShifts : Obligations.CrcByteIsOneXorAndEightShifts :=
  ⟨fun c b => crcShifts_eq_iterate 8 (c ^^^ b.setWidth 16), by decide, by decide⟩

/-- Settles O32. -/
theorem crcInitPresetsTheRunningRegister : Obligations.CrcInitPresetsTheRunningRegister :=
  ⟨crcInit.1, exec_crcInit⟩

/-- Settles O33: a feed is one more step of the checksum's fold. -/
theorem crcFeedStreamsTheChecksum : Obligations.CrcFeedStreamsTheChecksum := by
  refine ⟨crcFeed.1, exec_crcFeed, fun s t h => ?_, fun s t bs hcrc h => ?_, by decide, by decide⟩
  · cases (exec_crcInit s).symm.trans h
    rfl
  · cases (exec_crcFeed s).symm.trans h
    have hfeed : crcByte s.crc s.crcIn = checksum s.params.crcInit (bs ++ [s.crcIn]) := by
      rw [checksum_concat, ← hcrc]
    exact ⟨hfeed, rfl⟩

/-- Settles O34. -/
theorem crcComputeChecksumsTheFrame : Obligations.CrcComputeChecksumsTheFrame := by
  refine ⟨crcCompute.1, fun s => ?_⟩
  rw [← s.fbufBytes_zero]
  rcases exec_crcCompute_cases s with ⟨h, e⟩ | ⟨h, e⟩
  · exact ⟨fun _ => e, fun h' => absurd h (by omega)⟩
  · exact ⟨fun h' => absurd h (by omega), fun _ => e⟩

/-- Settles O36: `State.captured` holds the two checksums that the command compares. -/
theorem crcVerifyComparesAndCaptures : Obligations.CrcVerifyComparesAndCaptures := by
  refine ⟨crcVerify.1, fun s => ?_⟩
  rw [← s.fbufBytes_zero]
  rcases exec_crcVerify_cases s with ⟨h, e⟩ | ⟨h, e⟩ | ⟨⟨lo, hi⟩, ⟨hne, e⟩ | ⟨heq, e⟩⟩
  · exact ⟨fun _ => e, fun h' => absurd h (by omega), fun _ hi => absurd h (by omega)⟩
  · exact ⟨fun h' => absurd h (by omega), fun _ => e, fun lo _ => absurd h (by omega)⟩
  · exact ⟨fun h => absurd h (by omega), fun h => absurd h (by omega),
      fun _ _ => ⟨fun _ => e, fun heq => absurd heq hne⟩⟩
  · exact ⟨fun h => absurd h (by omega), fun h => absurd h (by omega),
      fun _ _ => ⟨fun hne => absurd heq hne, fun _ => e⟩⟩

end Sys2Proof
end

section
/-! The Payload Codec (spec file 41): the bytes of each variant, their value, and the two commands. -/

namespace Sys2Proof.Machine

/-! ### Tags -/

/-- The tag byte of a variant (R72). -/
def DataType.tag : DataType → Byte
  | .bool => 0x01#8
  | .uint8 => 0x02#8
  | .uint32 => 0x03#8
  | .dateTime => 0x04#8
  | .float32 => 0x05#8
  | .string128 => 0x06#8
  | .timestamp => 0x07#8
  | .bytes65 => 0x08#8
  | .bytes16 => 0x09#8

/-- The variants, in the order of their tags (R72). -/
def DataType.all : List DataType :=
  [.bool, .uint8, .uint32, .dateTime, .float32, .string128, .timestamp, .bytes65, .bytes16]

@[simp] theorem DataType.ofTag_tag (d : DataType) : DataType.ofTag d.tag = some d := by
  cases d <;> rfl

theorem DataType.eq_tag_of_ofTag {t : Byte} {d : DataType} (h : DataType.ofTag t = some d) :
    t = d.tag := by
  rcases DataType.ofTag_cases h with
    ⟨rfl, rfl⟩ | ⟨rfl, rfl⟩ | ⟨rfl, rfl⟩ | ⟨rfl, rfl⟩ | ⟨rfl, rfl⟩ | ⟨rfl, rfl⟩ | ⟨rfl, rfl⟩ |
      ⟨rfl, rfl⟩ | ⟨rfl, rfl⟩ <;> rfl

/-- A tag byte and a length that stand in one row of the table of all variants. -/
theorem DataType.exists_of_mem_rows {t : Byte} {n : Nat}
    (h : (t.toNat, n) ∈ DataType.all.map fun d => (d.tag.toNat, d.wireLen)) :
    ∃ d, DataType.ofTag t = some d ∧ n = d.wireLen := by
  obtain ⟨d, -, hd⟩ := List.mem_map.1 h
  obtain ⟨htag, rfl⟩ := Prod.mk.inj hd
  obtain rfl := BitVec.eq_of_toNat_eq htag
  exact ⟨d, d.ofTag_tag, rfl⟩

variable {t : Byte} {d : DataType} {s u : State} {bs : List Byte}

/-! ### The bytes of a value -/

theorem payloadBytes_of_ofTag_none (h : DataType.ofTag t = none) (s : State) :
    payloadBytes t s = .error .unsupportedPayloadType := by
  simp [payloadBytes, h]

theorem payloadBytes_of_ofTag (h : DataType.ofTag t = some d) (s : State) :
    payloadBytes t s = variantBytes s d := by
  simp [payloadBytes, h]

/-- A Bool's byte is 1 or 0 after bit 0 of `P_VAL` (R94). -/
theorem boolByte_eq (v : Word) :
    (v.extractLsb' 0 1).setWidth 8 = if v.getLsbD 0 then 0x01#8 else 0x00#8 := by
  have hbit : v.extractLsb' 0 1 = BitVec.ofBool (v.getLsbD 0) := by
    apply BitVec.eq_of_getLsbD_eq
    intro i hi
    obtain rfl : i = 0 := by omega
    simp
  rw [hbit]
  cases v.getLsbD 0 <;> rfl

theorem stringBytes_of_gt (h : 127 < s.pLen.toNat) : stringBytes s = .error .stringTooLong :=
  if_pos h

/-- A string that fits is its content, filled up with zeros (R98). -/
theorem stringBytes_of_le (h : s.pLen.toNat ≤ 127) :
    stringBytes s =
      .ok (s.pdataBytes s.pLen.toNat ++ List.replicate (128 - s.pLen.toNat) 0x00#8) := by
  have hfill : 128 - s.pLen.toNat = 1 + (127 - s.pLen.toNat) := by omega
  rcases stringBytes_cases s with ⟨h', -⟩ | ⟨-, e⟩
  · omega
  · rw [e, hfill, List.replicate_add, List.append_assoc]
    rfl

theorem stringBytes_eq_ok (h : stringBytes s = .ok bs) :
    s.pLen.toNat ≤ 127 ∧
      bs = s.pdataBytes s.pLen.toNat ++ List.replicate (128 - s.pLen.toNat) 0x00#8 := by
  by_cases hle : s.pLen.toNat ≤ 127
  · exact ⟨hle, Except.ok.inj (h.symm.trans (stringBytes_of_le hle))⟩
  · cases h.symm.trans (stringBytes_of_gt (by omega))

/-- Below its length a string's bytes are the content. -/
theorem stringBytes_getElem?_content {k : Nat} (h : stringBytes s = .ok bs)
    (hk : k < s.pLen.toNat) : bs[k]? = some (s.pdata k) := by
  obtain ⟨-, rfl⟩ := stringBytes_eq_ok h
  rw [List.getElem?_append_left (by simpa using hk), List.getElem?_eq_getElem (by simpa using hk),
    State.getElem_pdataBytes]

/-- From its length on a string's bytes are 0. -/
theorem stringBytes_getElem?_padding {k : Nat} (h : stringBytes s = .ok bs)
    (hk : s.pLen.toNat ≤ k) (hk' : k < 128) : bs[k]? = some 0x00#8 := by
  obtain ⟨-, rfl⟩ := stringBytes_eq_ok h
  rw [List.getElem?_append_right (by simpa using hk), State.length_pdataBytes,
    List.getElem?_replicate_of_lt (by omega)]

theorem stringBytes_take {j : Nat} (h : stringBytes s = .ok bs) (hj : j ≤ s.pLen.toNat) :
    bs.take j = s.pdataBytes j := by
  have hlen := stringBytes_length h
  obtain ⟨hle, -⟩ := stringBytes_eq_ok h
  refine List.ext_getElem (by simp; omega) fun k hk hk' => ?_
  rw [State.length_pdataBytes] at hk'
  rw [List.getElem_take, State.getElem_pdataBytes]
  have hbyte := stringBytes_getElem?_content h (show k < s.pLen.toNat by omega)
  rw [List.getElem?_eq_getElem (by omega)] at hbyte
  exact Option.some.inj hbyte

theorem rawBytes_of_ne {n : Nat} (h : s.pLen.toNat ≠ n) :
    rawBytes n s = .error .byteLengthInvalid :=
  if_pos h

theorem rawBytes_of_eq {n : Nat} (h : s.pLen.toNat = n) : rawBytes n s = .ok (s.pdataBytes n) :=
  if_neg (not_not_intro h)

theorem rawBytes_eq_ok {n : Nat} (h : rawBytes n s = .ok bs) :
    s.pLen.toNat = n ∧ bs = s.pdataBytes n := by
  by_cases hn : s.pLen.toNat = n
  · exact ⟨hn, Except.ok.inj (h.symm.trans (rawBytes_of_eq hn))⟩
  · cases h.symm.trans (rawBytes_of_ne hn)

/-! ### What an encode reads -/

theorem stringBytes_congr (hlen : u.pLen = s.pLen)
    (hbyte : ∀ k, k < s.pLen.toNat → u.pdata k = s.pdata k) : stringBytes u = stringBytes s := by
  rw [stringBytes, stringBytes, hlen, State.pdataBytes_congr hbyte]

theorem rawBytes_congr {n : Nat} (hlen : u.pLen = s.pLen)
    (hbyte : ∀ k, k < n → u.pdata k = s.pdata k) : rawBytes n u = rawBytes n s := by
  rw [rawBytes, rawBytes, hlen, State.pdataBytes_congr hbyte]

/-! ### The value of a payload region -/

theorem payloadValue_of_ofTag_none (h : DataType.ofTag t = none) (bs : List Byte) :
    payloadValue t bs = .error .unknownDataType := by
  simp [payloadValue, h]

theorem payloadValue_of_length_ne (h : DataType.ofTag t = some d) (hl : bs.length ≠ d.wireLen) :
    payloadValue t bs = .error .byteLengthInvalid := by
  simp [payloadValue, h, hl]

theorem payloadValue_of_length_eq (h : DataType.ofTag t = some d) (hl : bs.length = d.wireLen) :
    payloadValue t bs = variantValue bs d := by
  simp [payloadValue, h, hl]

theorem payloadValue_bool_ok {b : Byte} (h : b = 0x00#8 ∨ b = 0x01#8) :
    payloadValue 0x01#8 [b] = .ok (.scalar (b.setWidth 32)) :=
  if_pos h

theorem payloadValue_bool_error {b : Byte} (h : ¬(b = 0x00#8 ∨ b = 0x01#8)) :
    payloadValue 0x01#8 [b] = .error .invalidBoolEncoding :=
  if_neg h

theorem payloadValue_string_error (hl : bs.length = 128) (h : 0x00#8 ∉ bs) :
    payloadValue 0x06#8 bs = .error .stringNotTerminated :=
  (payloadValue_of_length_eq (d := .string128) rfl hl).trans (if_neg h)

/-- The part of a list before its first NUL, which stands at index `k`. -/
theorem takeWhile_ne_nul {k : Nat} (hk : bs[k]? = some 0x00#8)
    (hlt : ∀ j, j < k → bs[j]? ≠ some 0x00#8) : bs.takeWhile (· != 0x00#8) = bs.take k := by
  obtain ⟨hkl, hnul⟩ := List.getElem?_eq_some_iff.1 hk
  have hfirst : bs.findIdx (fun b => !(b != 0x00#8)) = k := by
    refine (List.findIdx_eq hkl).2 ⟨by simp [hnul], fun j hj => ?_⟩
    have hne := hlt j hj
    rw [List.getElem?_eq_getElem (by omega)] at hne
    simpa using hne
  rw [List.takeWhile_eq_take_findIdx_not, hfirst]

/-- A string's content ends at its first NUL (R98, R105). -/
theorem payloadValue_string_ok {k : Nat} (hl : bs.length = 128) (hk : bs[k]? = some 0x00#8)
    (hlt : ∀ j, j < k → bs[j]? ≠ some 0x00#8) :
    payloadValue 0x06#8 bs = .ok (.content (bs.take k)) := by
  rw [payloadValue_of_length_eq (d := .string128) rfl hl, ← takeWhile_ne_nul hk hlt]
  exact if_pos (List.mem_of_getElem? hk)

/-! ### The round trip of the two functions -/

/-- An encoded string decodes to its content before the first NUL, or to all of it (R110). -/
theorem payloadValue_stringBytes {j : Nat} (h : stringBytes s = .ok bs) (hj : j ≤ s.pLen.toNat)
    (hnul : j < s.pLen.toNat → s.pdata j = 0x00#8)
    (hlt : ∀ i, i < j → s.pdata i ≠ 0x00#8) :
    payloadValue 0x06#8 bs = .ok (.content (s.pdataBytes j)) := by
  rw [← stringBytes_take h hj]
  refine payloadValue_string_ok (stringBytes_length h) ?_ fun i hi => ?_
  · by_cases hjn : j < s.pLen.toNat
    · rw [stringBytes_getElem?_content h hjn, hnul hjn]
    · obtain ⟨hle, -⟩ := stringBytes_eq_ok h
      exact stringBytes_getElem?_padding h (by omega) (by omega)
  · rw [stringBytes_getElem?_content h (by omega)]
    exact fun e => hlt i hi (Option.some.inj e)

theorem sameValue_bool_iff : SameValue 0x01#8 s u ↔ u.pVal.getLsbD 0 = s.pVal.getLsbD 0 := by
  simp [SameValue]

theorem sameValue_uint8_iff :
    SameValue 0x02#8 s u ↔ u.pVal.extractLsb' 0 8 = s.pVal.extractLsb' 0 8 := by
  simp [SameValue]

theorem sameValue_of_pVal (ht : t = 0x03#8 ∨ t = 0x05#8 ∨ t = 0x07#8) (h : u.pVal = s.pVal) :
    SameValue t s u := by
  rcases ht with rfl | rfl | rfl <;> simpa [SameValue] using h

theorem sameValue_dateTime_iff :
    SameValue 0x04#8 s u ↔
      u.dtHour = s.dtHour ∧ u.dtMinute = s.dtMinute ∧ u.dtSecond = s.dtSecond ∧
        u.dtDay = s.dtDay ∧ u.dtMonth = s.dtMonth ∧ u.dtYear = s.dtYear ∧ u.dtDow = s.dtDow := by
  simp [SameValue]

theorem sameValue_of_content (ht : t = 0x06#8 ∨ t = 0x08#8 ∨ t = 0x09#8) (hlen : u.pLen = s.pLen)
    (hbyte : ∀ k, k < s.pLen.toNat → u.pdata k = s.pdata k) : SameValue t s u := by
  rcases ht with rfl | rfl | rfl <;> simpa [SameValue] using ⟨hlen, hbyte⟩

/-- Performing a content's writes gives its length and its bytes. -/
theorem sameValue_perform_content (ht : t = 0x06#8 ∨ t = 0x08#8 ∨ t = 0x09#8) (s u : State) :
    SameValue t s (u.perform (.content (s.pdataBytes s.pLen.toNat))) := by
  refine sameValue_of_content ht ?_ fun k hk => ?_
  · simp [State.perform]
  · have hbyte := u.pdata_writePdata_inside 0 k (s.pdataBytes s.pLen.toNat) (by simpa using hk)
    rw [Nat.zero_add, State.getElem_pdataBytes] at hbyte
    exact hbyte

/-- A Bool's byte decodes to a word with the bit it was made of. -/
theorem getLsbD_boolByte (v : Word) :
    (((v.extractLsb' 0 1).setWidth 8).setWidth 32).getLsbD 0 = v.getLsbD 0 := by
  simp

/-- Decoding the bytes of a variant gives its value back, into whatever state (R110). -/
theorem variantBytes_roundTrip (h : variantBytes s d = .ok bs)
    (hnul : d = .string128 → s.contentHasNoNul) :
    ∃ v, payloadValue d.tag bs = .ok v ∧ ∀ u : State, SameValue d.tag s (u.perform v) := by
  cases d with
  | bool =>
    obtain rfl := Except.ok.inj h
    refine ⟨_, payloadValue_bool_ok ?_, fun u => sameValue_bool_iff.2 (getLsbD_boolByte s.pVal)⟩
    rw [boolByte_eq]
    cases s.pVal.getLsbD 0
    · exact .inl rfl
    · exact .inr rfl
  | uint8 =>
    obtain rfl := Except.ok.inj h
    refine ⟨_, rfl, fun u => sameValue_uint8_iff.2 ?_⟩
    exact (BitVec.extractLsb'_setWidth_of_le (by decide)).trans BitVec.extractLsb'_eq_self
  | dateTime =>
    obtain rfl := Except.ok.inj h
    exact ⟨_, rfl, fun u =>
      sameValue_dateTime_iff.2 ⟨rfl, rfl, rfl, rfl, rfl, ofBe16_extract s.dtYear, rfl⟩⟩
  | string128 =>
    exact ⟨_, payloadValue_stringBytes h le_rfl (fun hlt => absurd hlt (lt_irrefl _)) (hnul rfl),
      sameValue_perform_content (.inl rfl) s⟩
  | uint32 | float32 | timestamp =>
    obtain rfl := Except.ok.inj h
    exact ⟨_, rfl, fun u => sameValue_of_pVal (by decide) (ofBe32_extract s.pVal)⟩
  | bytes65 | bytes16 =>
    obtain ⟨hn, rfl⟩ := rawBytes_eq_ok h
    refine ⟨_, payloadValue_of_length_eq (DataType.ofTag_tag _) (s.length_pdataBytes _), ?_⟩
    rw [← hn]
    exact sameValue_perform_content (by decide) s

/-- `payload_value` undoes `payload_bytes` (R110). -/
theorem payloadBytes_roundTrip (h : payloadBytes t s = .ok bs)
    (hnul : t = 0x06#8 → s.contentHasNoNul) :
    ∃ v, payloadValue t bs = .ok v ∧ ∀ u : State, SameValue t s (u.perform v) := by
  obtain ⟨d, hd, -⟩ := payloadBytes_length h
  obtain rfl := DataType.eq_tag_of_ofTag hd
  rw [payloadBytes_of_ofTag hd] at h
  refine variantBytes_roundTrip h ?_
  rintro rfl
  exact hnul rfl

/-! ### The two commands -/

/-- The codes of the failures are not that of `OK` (R150). -/
theorem Status.code_eq_zero_iff {c : Status} : c.code = 0x00#8 ↔ c = .ok := by
  cases c <;> decide

/-- A `PAY_ENCODE` that reports `OK` has appended the tag and the payload bytes (R108). -/
theorem exec_payEncode_eq_ok {t : State} (h : exec .payEncode s = .next t)
    (hok : t.status = 0x00#8) :
    ∃ pb, payloadBytes s.pType s = .ok pb ∧ s.flen.toNat + 1 + pb.length ≤ 152 ∧
      t = { s.writeFbuf s.flen.toNat (s.pType :: pb) with
        flen := BitVec.ofNat 8 (s.flen.toNat + 1 + pb.length) }.commit := by
  have hfail {c : Status} (hc : c ≠ .ok) : exec .payEncode s ≠ .next (s.fail c) := fun e => by
    cases e.symm.trans h
    exact hc (Status.code_eq_zero_iff.1 hok)
  rcases exec_payEncode_cases s with ⟨-, e⟩ | ⟨-, ⟨c, hc, e⟩ | ⟨pb, hpb, ⟨-, e⟩ | ⟨hle, e⟩⟩⟩
  · exact absurd e (hfail (by decide))
  · refine absurd e (hfail ?_)
    rcases payloadBytes_error hc with rfl | rfl | rfl <;> decide
  · exact absurd e (hfail (by decide))
  · cases e.symm.trans h
    exact ⟨pb, hpb, hle, rfl⟩

/-- A `PAY_DECODE` of a frame that decodes performs the writes (R109). -/
theorem exec_payDecode_ok {w : PayloadValue} (hle : s.flen.toNat ≤ 152)
    (h : payloadValue s.pType (s.fbufBytes 0 s.flen.toNat) = .ok w) :
    exec .payDecode s = .next (s.perform w).commit := by
  rcases exec_payDecode_cases s with ⟨hgt, -⟩ | ⟨-, ⟨c, hc, -⟩ | ⟨v, hv, e⟩⟩
  · omega
  · cases hc.symm.trans h
  · cases hv.symm.trans h
    exact e

/-- An encode from `FLEN` = 0 leaves the payload bytes behind the tag byte of the frame (R108). -/
theorem exec_payEncode_frame {t : State} (hflen : s.flen = 0x00#8)
    (h : exec .payEncode s = .next t) (hok : t.status = 0x00#8) :
    ∃ pb, payloadBytes s.pType s = .ok pb ∧ t.flen.toNat = pb.length + 1 ∧
      t.fbufBytes 1 pb.length = pb := by
  obtain ⟨pb, hpb, hle, rfl⟩ := exec_payEncode_eq_ok h hok
  simp only [hflen, BitVec.toNat_ofNat, Nat.zero_mod, Nat.zero_add] at hle ⊢
  refine ⟨pb, hpb, ?_, ?_⟩
  · simp only [State.commit_flen, BitVec.toNat_ofNat]
    omega
  · have hstored := (Memory.storesRun_storeRun s.mem fbufBase (s.pType :: pb)).1
    refine (State.fbufBytes_of_storesRun hstored ?_).trans List.take_length
    rw [List.length_cons, Nat.add_comm]

end Sys2Proof.Machine

namespace Sys2Proof

open Sys2Proof.Machine Sys2Proof.Laws.EncodingRow

/-- Settles O43: the functions by the variant, the embedded NUL by the string's first NUL, and the
commands by the functions: moved down past its tag byte the frame is the payload bytes. -/
theorem payloadRoundTrip : Obligations.PayloadRoundTrip := by
  refine ⟨fun t s bs => payloadBytes_roundTrip,
    fun s bs j h hj hnul hlt => payloadValue_stringBytes h hj.le (fun _ => hnul) hlt, ?_⟩
  intro s t u hflen h hok hnul htype hulen hmoved
  obtain ⟨pb, hpb, htlen, hframe⟩ := exec_payEncode_frame hflen h hok
  obtain ⟨v, hv, hsame⟩ := payloadBytes_roundTrip hpb hnul
  obtain ⟨d, -, hlen⟩ := payloadBytes_length hpb
  have hwire := d.wireLen_le
  have hn : u.flen.toNat = pb.length := by omega
  have hregion : u.fbufBytes 0 u.flen.toNat = pb := by
    rw [hn] at hmoved ⊢
    rw [← hframe, State.length_fbufBytes]
    exact State.fbufBytes_congr fun k hk => by
      rw [Nat.zero_add, Nat.add_comm 1]
      exact hmoved k hk
  exact ⟨_, exec_payDecode_ok (by omega) (by rw [hregion, htype, hv]), rfl, hsame u⟩

/-- Settles O37: the tag picks the variant, whose bytes are given by the lemma of its form. -/
theorem payloadBytesFollowTheTag : Obligations.PayloadBytesFollowTheTag := by
  intro t s
  refine ⟨fun h => payloadBytes_of_ofTag_none (DataType.ofTag_eq_none.2 h) s, ?_, ?_, ?_, ?_, ?_, ?_,
    ?_⟩
  · rintro rfl
    exact congrArg (fun b => Except.ok [b]) (boolByte_eq s.pVal)
  · rintro rfl
    rfl
  · rintro (rfl | rfl | rfl) <;> rfl
  · rintro rfl
    rfl
  · rintro rfl
    refine ⟨fun h => stringBytes_of_gt h, fun h => ?_⟩
    have e := stringBytes_of_le h
    exact ⟨_, e, stringBytes_length e, fun k => stringBytes_getElem?_content e,
      fun k => stringBytes_getElem?_padding e⟩
  · rintro rfl
    exact ⟨fun h => rawBytes_of_ne h, fun h => rawBytes_of_eq h⟩
  · rintro rfl
    exact ⟨fun h => rawBytes_of_ne h, fun h => rawBytes_of_eq h⟩

/-- Settles O38, by the tag's variant. -/
theorem payloadEncodeReadsItsOperandsOnly : Obligations.PayloadEncodeReadsItsOperandsOnly := by
  intro t s u hval hdate hstring h65 h16
  cases hd : DataType.ofTag t with
  | none => rw [payloadBytes_of_ofTag_none hd, payloadBytes_of_ofTag_none hd]
  | some d =>
    rw [payloadBytes_of_ofTag hd, payloadBytes_of_ofTag hd]
    obtain rfl := DataType.eq_tag_of_ofTag hd
    cases d with
    | bool | uint8 | uint32 | float32 | timestamp =>
      simp only [variantBytes, hval (by decide)]
    | dateTime =>
      obtain ⟨hhour, hminute, hsecond, hday, hmonth, hyear, hdow⟩ := hdate rfl
      simp only [variantBytes, hhour, hminute, hsecond, hday, hmonth, hyear, hdow]
    | string128 =>
      obtain ⟨hlen, hbyte⟩ := hstring rfl
      exact stringBytes_congr hlen hbyte
    | bytes65 =>
      obtain ⟨hlen, hbyte⟩ := h65 rfl
      exact rawBytes_congr hlen fun k hk => hbyte k (Nat.le_of_lt_succ hk)
    | bytes16 =>
      obtain ⟨hlen, hbyte⟩ := h16 rfl
      exact rawBytes_congr hlen fun k hk => hbyte k (Nat.le_of_lt_succ hk)

/-- Settles O39: no variant, then a wrong length, and then the value of the variant. -/
theorem payloadValueChecksTagLengthValue : Obligations.PayloadValueChecksTagLengthValue := by
  intro t bs
  refine ⟨fun h => payloadValue_of_ofTag_none (DataType.ofTag_eq_none.2 h) bs, fun n hrow hl => ?_,
    ?_, ?_, ?_, ?_, ?_, ?_, ?_⟩
  · obtain ⟨d, hd, rfl⟩ := DataType.exists_of_mem_rows hrow
    exact payloadValue_of_length_ne hd hl
  · rintro b rfl rfl
    exact ⟨fun h0 h1 => payloadValue_bool_error (not_or.2 ⟨h0, h1⟩), payloadValue_bool_ok⟩
  · rintro b rfl rfl
    rfl
  · rintro b0 b1 b2 b3 (rfl | rfl | rfl) rfl <;> rfl
  · rintro b0 b1 b2 b3 b4 b5 b6 b7 rfl rfl
    rfl
  · rintro rfl hl
    exact ⟨payloadValue_string_error hl, fun k => payloadValue_string_ok hl⟩
  · rintro rfl hl
    exact payloadValue_of_length_eq (d := .bytes65) rfl hl
  · rintro rfl hl
    exact payloadValue_of_length_eq (d := .bytes16) rfl hl

/-- Settles O41: the command's cases are the checks in their order, and the last stores the run from
`FBUF[FLEN]` on. -/
theorem payEncodeAppendsTagAndBytes : Obligations.PayEncodeAppendsTagAndBytes := by
  refine ⟨payEncode.1, fun s => ?_⟩
  rcases exec_payEncode_cases s with ⟨hgt, e⟩ | ⟨hle, hcases⟩
  · exact ⟨fun _ => e, fun hle => absurd hgt (by omega)⟩
  refine ⟨fun hgt => absurd hgt (by omega), fun _ => ⟨fun c hc => ?_, fun pb hpb => ?_⟩⟩
  · rcases hcases with ⟨c', hc', e⟩ | ⟨pb, hpb, -⟩
    · cases hc.symm.trans hc'
      exact e
    · cases hc.symm.trans hpb
  · rcases hcases with ⟨c, hc, -⟩ | ⟨pb', hpb', hroom⟩
    · cases hpb.symm.trans hc
    · cases hpb.symm.trans hpb'
      rcases hroom with ⟨hover, e⟩ | ⟨hfit, e⟩
      · exact ⟨fun _ => e, fun hfit => absurd hover (by omega)⟩
      · exact ⟨fun hover => absurd hfit (by omega),
          fun _ => ⟨_, e, Memory.storesRun_storeRun s.mem _ _⟩⟩

/-- Settles O42: the command's cases are the checks in their order. -/
theorem payDecodeTakesTheWholeFrame : Obligations.PayDecodeTakesTheWholeFrame := by
  refine ⟨payDecode.1, fun s => ?_⟩
  rw [← s.fbufBytes_zero]
  rcases exec_payDecode_cases s with ⟨hgt, e⟩ | ⟨hle, hcases⟩
  · exact ⟨fun _ => e, fun hle => absurd hgt (by omega)⟩
  refine ⟨fun hgt => absurd hgt (by omega), fun _ => ⟨fun c hc => ?_, fun v => exec_payDecode_ok hle⟩⟩
  rcases hcases with ⟨c', hc', e⟩ | ⟨w, hw, -⟩
  · cases hc.symm.trans hc'
    exact e
  · cases hc.symm.trans hw

end Sys2Proof
end

section
/-! The Packet Codec (spec file 42): the frames the encoders build, the failures of the decode prologue in
their order, and what each decoder does with a frame that passes it. -/

namespace Sys2Proof.Machine

variable {i : Instr} {sh : Shape} {s t u : State} {c : Status} {tag : Byte}
  {rest : State → Except Status State}

/-! ### Encoders -/

/-- A command that ends in `finish_frame` stores the body and its big-endian checksum from `FBUF[0]` on
(R128). -/
theorem exec_finishFrame_storesRun {body : List Byte} {n : Nat}
    (h : exec i s = .next (finishFrame body s)) (hn : body.length + 2 = n) :
    ∃ m, exec i s = .next
        { s with
          mem := m, flen := BitVec.ofNat 8 n, crcCalc := checksum s.params.crcInit body
          status := 0x00#8 } ∧
      Memory.StoresRun s.mem m 0x100 (body ++ be16 (checksum s.params.crcInit body)) := by
  subst hn
  exact ⟨_, h.trans (congrArg _ (finishFrame_eq body s)), Memory.storesRun_storeRun _ _ _⟩

theorem encodePayloadFrame_of_error (h : payloadBytes s.pType s = .error c) :
    encodePayloadFrame sh s = s.fail c := by
  simp [encodePayloadFrame, h]

theorem encodePayloadFrame_of_ok {pb : List Byte} (h : payloadBytes s.pType s = .ok pb) :
    encodePayloadFrame sh s = finishFrame (eidBody sh s ++ [s.pType] ++ pb) s := by
  simp [encodePayloadFrame, h]

theorem exec_encEpinfo_of_error (h : stringBytes s = .error c) :
    exec .encEpinfo s = .next (s.fail c) := by
  simp [exec, execEncEpinfo, h]

theorem exec_encEpinfo_of_ok {sb : List Byte} (h : stringBytes s = .ok sb) :
    exec .encEpinfo s = .next (finishFrame (eidBody .epInfo s ++ [s.fDtype] ++ sb) s) := by
  simp [exec, execEncEpinfo, h]

/-! ### The failures of the decode prologue, in their order (R129, R152) -/

theorem decodePrologue_of_too_long (h : 152 < s.flen.toNat) :
    decodePrologue sh s = .error (s.fail .frameLengthInvalid) :=
  if_pos h

theorem decodePrologue_of_too_short (hi : s.flen.toNat ≤ 152) (h : s.flen.toNat < sh.minLen) :
    decodePrologue sh s = .error (s.fail .frameTooShort) :=
  (if_neg (Nat.not_lt.2 hi)).trans (if_pos h)

theorem decodePrologue_of_bad_header (hi : s.flen.toNat ≤ 152) (lo : sh.minLen ≤ s.flen.toNat)
    (h : s.fbufBytes 0 4 ≠ magic) : decodePrologue sh s = .error (s.fail .malformedHeader) :=
  (if_neg (Nat.not_lt.2 hi)).trans ((if_neg (Nat.not_lt.2 lo)).trans (if_pos h))

/-- From the checksum step on the prologue works on the state with the checksums captured. -/
theorem decodePrologue_of_header (hi : s.flen.toNat ≤ 152) (lo : sh.minLen ≤ s.flen.toNat)
    (h : s.fbufBytes 0 4 = magic) :
    decodePrologue sh s =
      if s.captured.crcCalc ≠ s.captured.crcRecv then .error (s.captured.fail .checksumMismatch)
      else if definedKind (s.fbuf 4) = false then .error (s.captured.fail .unknownPacketType)
      else if s.fbuf 4 ≠ sh.kind then .error (s.captured.fail .wrongPacketType)
      else .ok s.captured :=
  (if_neg (Nat.not_lt.2 hi)).trans
    ((if_neg (Nat.not_lt.2 lo)).trans (if_neg (not_not_intro h)))

theorem decodePrologue_of_mismatch (hi : s.flen.toNat ≤ 152) (lo : sh.minLen ≤ s.flen.toNat)
    (hm : s.fbufBytes 0 4 = magic) (h : s.captured.crcCalc ≠ s.captured.crcRecv) :
    decodePrologue sh s = .error (s.captured.fail .checksumMismatch) := by
  rw [decodePrologue_of_header hi lo hm, if_pos h]

theorem decodePrologue_of_unknown_kind (hi : s.flen.toNat ≤ 152) (lo : sh.minLen ≤ s.flen.toNat)
    (hv : s.frameVerifies) (h : definedKind (s.fbuf 4) = false) :
    decodePrologue sh s = .error (s.captured.fail .unknownPacketType) := by
  obtain ⟨hm, hsum⟩ := hv
  rw [decodePrologue_of_header hi lo hm, if_neg (not_not_intro hsum), if_pos h]

theorem decodePrologue_of_wrong_kind (hi : s.flen.toNat ≤ 152) (lo : sh.minLen ≤ s.flen.toNat)
    (hv : s.frameVerifies) (hk : definedKind (s.fbuf 4) = true) (h : s.fbuf 4 ≠ sh.kind) :
    decodePrologue sh s = .error (s.captured.fail .wrongPacketType) := by
  obtain ⟨hm, hsum⟩ := hv
  rw [decodePrologue_of_header hi lo hm, if_neg (not_not_intro hsum), if_neg (by simp [hk]),
    if_pos h]

theorem definedKind_eq_false_iff {k : Byte} :
    definedKind k = false ↔ k ∉ [0x00#8, 0x01#8, 0x02#8, 0x04#8, 0x09#8] := by
  rw [← definedKind_iff, Bool.not_eq_true]

/-! ### A whole decode command -/

theorem decodeFrame_of_prologue_error (h : decodePrologue sh s = .error t) :
    decodeFrame sh rest s = t := by
  simp [decodeFrame, h]

/-- Past the prologue a failure of the decoder's own part leaves the checksums captured. -/
theorem exec_of_rest_error (h : exec i s = .next (decodeFrame sh rest s))
    (hp : s.passesPrologue sh.minLen sh.kind) (hr : rest s.captured = .error c) :
    exec i s = .next { s.captured with status := c.code } := by
  rw [h, decodeFrame, decodePrologue_ok hp]
  simp only [hr, State.fail]

theorem exec_of_rest_ok (h : exec i s = .next (decodeFrame sh rest s))
    (hp : s.passesPrologue sh.minLen sh.kind) (hr : rest s.captured = .ok u) :
    exec i s = .next { u with status := 0x00#8 } := by
  rw [h, decodeFrame, decodePrologue_ok hp]
  simp only [hr, State.commit, Status.code]

/-- Whatever a decoder's own part does, it fails as its prologue does (R130). -/
theorem prologueFailures_of_decodeFrame (h : ∀ s, exec i s = .next (decodeFrame sh rest s)) :
    PrologueFailures i sh.minLen sh.kind := by
  have hfail {s t : State} (e : decodePrologue sh s = .error t) : exec i s = .next t := by
    rw [h, decodeFrame_of_prologue_error e]
  exact fun s => ⟨fun hgt => hfail (decodePrologue_of_too_long hgt),
    fun hi hlt => hfail (decodePrologue_of_too_short hi hlt),
    fun hi lo => ⟨fun hm => hfail (decodePrologue_of_bad_header hi lo hm),
      fun hm hsum => hfail (decodePrologue_of_mismatch hi lo hm hsum),
      fun hv => ⟨fun hk =>
          hfail (decodePrologue_of_unknown_kind hi lo hv (definedKind_eq_false_iff.2 hk)),
        fun hk hne => hfail (decodePrologue_of_wrong_kind hi lo hv (definedKind_iff.2 hk) hne)⟩⟩⟩

/-! ### The decoders' own parts -/

theorem State.flen_eq_iff {n : Nat} (hn : n < 256) :
    s.flen = BitVec.ofNat 8 n ↔ s.flen.toNat = n := by
  rw [← BitVec.toNat_inj, BitVec.toNat_ofNat, Nat.mod_eq_of_lt hn]

theorem decodeErrorRest_of_ne (h : s.flen ≠ 9#8) :
    decodeErrorRest s = .error .frameLengthInvalid :=
  if_pos (mt (State.flen_eq_iff (by decide)).2 h)

theorem decodeErrorRest_of_eq (h : s.flen = 9#8) :
    decodeErrorRest s =
      .ok { s with fKind := 0x00#8, fFlags := s.fbuf 5, fErrcode := s.fbuf 6 } :=
  if_neg (not_not_intro ((State.flen_eq_iff (by decide)).1 h))

theorem decodeEidRest_of_ne (h : s.flen ≠ 12#8) :
    decodeEidRest sh s = .error .frameLengthInvalid :=
  if_pos (mt (State.flen_eq_iff (by decide)).2 h)

theorem decodeEidRest_of_eq (h : s.flen = 12#8) : decodeEidRest sh s = .ok (takeEidFields sh s) :=
  if_neg (not_not_intro ((State.flen_eq_iff (by decide)).1 h))

theorem decodePayloadRest_of_error
    (h : payloadValue tag (s.fbufBytes 11 (s.flen.toNat - 13)) = .error c) :
    decodePayloadRest sh tag s = .error c := by
  simp [decodePayloadRest, h]

/-- The payload's own writes come first, and the frame's fields around them (R139, R141, R142). -/
theorem decodePayloadRest_of_ok {v : PayloadValue}
    (h : payloadValue tag (s.fbufBytes 11 (s.flen.toNat - 13)) = .ok v) :
    decodePayloadRest sh tag s =
      .ok { s.perform v with
        fKind := sh.kind, fFlags := s.fbuf 5
        fEid := ofBe32 (s.fbuf 6) (s.fbuf 7) (s.fbuf 8) (s.fbuf 9)
        fDtype := s.fbuf 10, pType := tag } := by
  rw [← perform_takeEidFields]
  simp [decodePayloadRest, h]

end Sys2Proof.Machine

namespace Sys2Proof

open Sys2Proof.Machine Sys2Proof.Laws.EncodingRow

/-- Settles O45: the two commands are one encoder of two shapes. -/
theorem payloadEncodersBuildTheirFrames : Obligations.PayloadEncodersBuildTheirFrames := by
  refine ⟨encInfo.1, encWrite.1, fun i kind s hi => ?_⟩
  obtain ⟨sh, rfl, hexec⟩ :
      ∃ sh : Shape, sh.kind = kind ∧ exec i s = .next (encodePayloadFrame sh s) := by
    rcases hi with ⟨rfl, rfl⟩ | ⟨rfl, rfl⟩
    · exact ⟨.info, rfl, exec_encInfo s⟩
    · exact ⟨.write, rfl, exec_encWrite s⟩
  refine ⟨fun c hc => ?_, fun pb hpb => ?_⟩
  · rw [hexec, encodePayloadFrame_of_error hc]
    rfl
  · rw [encodePayloadFrame_of_ok hpb] at hexec
    obtain ⟨d, -, hlen⟩ := payloadBytes_length hpb
    have hwire := d.wireLen_le
    exact ⟨by omega, exec_finishFrame_storesRun hexec (by simp; omega)⟩

/-- Settles O46: the description is the string of 128 bytes, so the frame has 141. -/
theorem encEpinfoBuildsTheDescriptionFrame : Obligations.EncEpinfoBuildsTheDescriptionFrame := by
  refine ⟨encEpinfo.1, fun s => ?_⟩
  rcases stringBytes_cases s with ⟨hgt, e⟩ | ⟨hle, e⟩
  · exact ⟨fun _ => exec_encEpinfo_of_error e, fun hle => absurd hgt (by omega)⟩
  have hexec := exec_encEpinfo_of_ok e
  rw [← List.append_assoc, ← List.append_assoc] at hexec
  exact ⟨fun hgt => absurd hle (by omega),
    fun _ => exec_finishFrame_storesRun hexec (by simp; omega)⟩

/-- Settles O47: past the prologue the length alone decides. -/
theorem decErrorParsesTheFrame : Obligations.DecErrorParsesTheFrame := by
  refine ⟨decError.1, prologueFailures_of_decodeFrame exec_decError, fun s hp => ?_⟩
  exact ⟨fun h => exec_of_rest_error (exec_decError s) hp (decodeErrorRest_of_ne h),
    fun h => exec_of_rest_ok (exec_decError s) hp (decodeErrorRest_of_eq h)⟩

/-- Settles O48: the two commands are one decoder of two shapes, and past the prologue the length alone
decides. -/
theorem decQueryAndEpqueryParseTheFrame : Obligations.DecQueryAndEpqueryParseTheFrame := by
  refine ⟨decQuery.1, decEpquery.1, fun i kind hi => ?_⟩
  obtain ⟨sh, rfl, hmin, hexec⟩ : ∃ sh : Shape, sh.kind = kind ∧ sh.minLen = 12 ∧
      ∀ s, exec i s = .next (decodeFrame sh (decodeEidRest sh) s) := by
    rcases hi with ⟨rfl, rfl⟩ | ⟨rfl, rfl⟩
    · exact ⟨.query, rfl, rfl, exec_decQuery⟩
    · exact ⟨.epQuery, rfl, rfl, exec_decEpquery⟩
  refine ⟨hmin ▸ prologueFailures_of_decodeFrame hexec, fun s hp => ?_⟩
  rw [← hmin] at hp
  exact ⟨fun h => exec_of_rest_error (hexec s) hp (decodeEidRest_of_ne h),
    fun h => exec_of_rest_ok (hexec s) hp (decodeEidRest_of_eq h)⟩

/-- Settles O49: the two commands are one decoder of two shapes, and past the prologue the payload's value
decides. -/
theorem decInfoAndWriteParseTheFrame : Obligations.DecInfoAndWriteParseTheFrame := by
  refine ⟨decInfo.1, decWrite.1, fun i kind hi => ?_⟩
  obtain ⟨sh, rfl, hmin, hexec⟩ : ∃ sh : Shape, sh.kind = kind ∧ sh.minLen = 14 ∧
      ∀ s, exec i s = .next (decodeFrame sh (fun t => decodePayloadRest sh (t.fbuf 10) t) s) := by
    rcases hi with ⟨rfl, rfl⟩ | ⟨rfl, rfl⟩
    · exact ⟨.info, rfl, rfl, exec_decInfo⟩
    · exact ⟨.write, rfl, rfl, exec_decWrite⟩
  refine ⟨hmin ▸ prologueFailures_of_decodeFrame hexec, fun s hp => ?_⟩
  rw [← hmin] at hp
  exact ⟨fun c hc => exec_of_rest_error (hexec s) hp (decodePayloadRest_of_error hc),
    fun v hv => exec_of_rest_ok (hexec s) hp (decodePayloadRest_of_ok hv)⟩

/-- Settles O50: the region behind the dtype byte is decoded as a string, whose length is checked before
its NUL is looked for. -/
theorem decEpinfoParsesTheDescription : Obligations.DecEpinfoParsesTheDescription := by
  refine ⟨decEpinfo.1, prologueFailures_of_decodeFrame exec_decEpinfo, fun s hp => ?_⟩
  intro region
  have hlen : region.length = s.flen.toNat - 13 := s.length_fbufBytes 11 _
  have h128 (h : s.flen = 141#8) : region.length = 128 := by rw [hlen, h]; rfl
  have hfail {c : Status} (h : payloadValue 0x06#8 region = .error c) :
      exec .decEpinfo s = .next { s.captured with status := c.code } :=
    exec_of_rest_error (exec_decEpinfo s) hp (decodePayloadRest_of_error h)
  refine ⟨fun h => hfail (payloadValue_of_length_ne (d := .string128) rfl ?_),
    fun h hnul => hfail (payloadValue_string_error (h128 h) hnul), fun k h hk hlt => ?_⟩
  · obtain ⟨lo, -, -, -⟩ := hp
    have hne : s.flen.toNat ≠ 141 := mt (State.flen_eq_iff (by decide)).2 h
    have hwire : DataType.string128.wireLen = 128 := rfl
    omega
  · have hv := payloadValue_string_ok (h128 h) hk hlt
    have hklt := (List.getElem?_eq_some_iff.1 hk).1
    have htake : (region.take k).length = k := List.length_take_of_le hklt.le
    refine ⟨Memory.storeRun s.mem pdataBase (region.take k), ?_, Memory.storesRun_storeRun _ _ _⟩
    rw [exec_of_rest_ok (exec_decEpinfo s) hp (decodePayloadRest_of_ok hv), State.perform, htake]
    rfl

/-- Settles O44: a fixed encoder is `finish_frame` of its body. -/
theorem fixedEncodersBuildTheirFrames : Obligations.FixedEncodersBuildTheirFrames := by
  refine ⟨encError.1, encQuery.1, encEpquery.1, ?_⟩
  rintro i s body (⟨rfl, rfl⟩ | ⟨rfl, rfl⟩ | ⟨rfl, rfl⟩)
  · exact exec_finishFrame_storesRun (exec_encError s) rfl
  · exact exec_finishFrame_storesRun (exec_encQuery s) rfl
  · exact exec_finishFrame_storesRun (exec_encEpquery s) rfl

/-- Settles O51: the command's cases are the checks in their order. -/
theorem pktKindReportsTheKindByte : Obligations.PktKindReportsTheKindByte := by
  refine ⟨pktKind.1, fun s => ?_⟩
  simp only [← definedKind_iff]
  rcases exec_pktKind_cases s with ⟨h, e⟩ | ⟨h, e⟩ | ⟨⟨lo, hi⟩, hkind⟩
  · exact ⟨fun _ => e, fun h' => absurd h (by omega), fun _ hi => absurd h (by omega)⟩
  · exact ⟨fun h' => absurd h (by omega), fun _ => e, fun lo _ => absurd h (by omega)⟩
  refine ⟨fun h => absurd h (by omega), fun h => absurd h (by omega), fun _ _ => ?_⟩
  rcases hkind with ⟨hfalse, e⟩ | ⟨htrue, e⟩
  · exact ⟨fun _ => e, fun htrue => absurd (hfalse.symm.trans htrue) Bool.false_ne_true⟩
  · exact ⟨fun hnot => absurd htrue hnot, fun _ => e⟩

end Sys2Proof
end

section
/-! The address command (R146): what `ADDR_NORM` answers in each of its cases. -/

namespace Sys2Proof.Machine

variable {s : State}

theorem exec_addrNorm_of_no_unit (h : s.params.hasAddrUnit = false) :
    exec .addrNorm s = .next (s.fail .illegalCommand) := by
  rcases exec_addrNorm_cases s with ⟨-, e⟩ | ⟨hunit, -⟩
  · exact e
  · exact absurd (h.symm.trans hunit) Bool.false_ne_true

theorem exec_addrNorm_of_no_port (h : s.params.hasAddrUnit = true) (hport : s.portValid = false) :
    exec .addrNorm s =
      .next { s with aPort := Config.defaultPort, aCtrl := s.aCtrl ||| 0x01#8 }.commit := by
  rcases exec_addrNorm_cases s with ⟨hno, -⟩ | ⟨-, ⟨-, e⟩ | ⟨hvalid, -⟩⟩
  · exact absurd (hno.symm.trans h) Bool.false_ne_true
  · exact e
  · exact absurd (hport.symm.trans hvalid) Bool.false_ne_true

theorem exec_addrNorm_of_port (h : s.params.hasAddrUnit = true) (hport : s.portValid = true) :
    exec .addrNorm s = .next s.commit := by
  rcases exec_addrNorm_cases s with ⟨hno, -⟩ | ⟨-, ⟨hinvalid, -⟩ | ⟨-, e⟩⟩
  · exact absurd (hno.symm.trans h) Bool.false_ne_true
  · exact absurd (hinvalid.symm.trans hport) Bool.false_ne_true
  · exact e

/-- The default port counts as supplied, so the next `ADDR_NORM` keeps it. -/
theorem State.portValid_of_aCtrl_or_one {c : Byte} (h : s.aCtrl = c ||| 0x01#8) : s.portValid = true := by
  simp [State.portValid, h]

/-- R146: the command is idempotent, since its result stays in the command's own case or, with the default
port set, in the case of a supplied port. -/
theorem exec_addrNorm_again {t : State} (h : exec .addrNorm s = .next t) :
    exec .addrNorm t = .next t := by
  rcases exec_addrNorm_cases s with ⟨hno, e⟩ | ⟨hunit, ⟨-, e⟩ | ⟨hport, e⟩⟩ <;>
    obtain rfl := Host.Outcome.next.inj (e.symm.trans h)
  · exact exec_addrNorm_of_no_unit hno
  · exact exec_addrNorm_of_port hunit (State.portValid_of_aCtrl_or_one rfl)
  · exact exec_addrNorm_of_port hunit hport

end Sys2Proof.Machine

namespace Sys2Proof

open Sys2Proof.Machine Sys2Proof.Laws.EncodingRow

/-- Settles O28: `PORT_VALID` is bit 0 of `A_CTRL`, and each clause is one case of the command. -/
theorem addrNormAppliesTheDefaultPort : Obligations.AddrNormAppliesTheDefaultPort :=
  ⟨addrNorm.1, fun _ => exec_addrNorm_of_no_unit, fun _ => exec_addrNorm_of_no_port,
    fun _ => exec_addrNorm_of_port, fun _ _ => exec_addrNorm_again⟩

end Sys2Proof
end

section
/-! The control commands (spec file 44): `NOP`, and what a host write of an illegal byte to `CMD` does. -/

namespace Sys2Proof.Machine

variable {s : State} {b : Byte}

/-! ### Host writes to `CMD` -/

/-- The duty of R168 binds the host only while the block is busy. -/
theorem busAllowed_of_not_busy (h : s.busy = false) (a : Addr) : busAllowed a s = true := by
  simp [busAllowed, h]

/-- The decoder takes every word with `W = 1` as a write of its data byte (R68). -/
theorem decodeBus_of_write {w : BusWord} (hw : w.getLsbD 18 = true) :
    decodeBus w = some (.write (w.extractLsb' 8 10) (w.extractLsb' 0 8)) := by
  rcases decodeBus_cases w with ⟨-, e⟩ | ⟨hread, -⟩ | ⟨hread, -⟩
  · exact e
  · exact absurd (hread.symm.trans hw) Bool.false_ne_true
  · exact absurd (hread.symm.trans hw) Bool.false_ne_true

/-- Delivering a write word while the block is not busy is the host write (R42, R47, R168). -/
theorem step_of_write {w : BusWord} {rest : List HostEvent} {a : Addr} {v : Byte}
    (hp : s.pending = .word w :: rest) (hd : decodeBus w = some (.write a v)) (hb : s.busy = false) :
    step s = busWrite a v { s with pending := rest } := by
  have hallowed : busAllowed a { s with pending := rest } = true := busAllowed_of_not_busy hb a
  simp [step, hostStep, hp, busStep, hd, hallowed]

/-- A write to `CMD` stores the byte and performs the command it selects (R16). -/
theorem busWrite_cmd (b : Byte) (s : State) :
    busWrite 0x000#10 b s = runCommand b { s with cmd := b } := rfl

/-! ### Illegal command bytes -/

/-- The bytes R148 lists as illegal whatever the parameters. -/
abbrev InCommandGap (b : Byte) : Prop :=
  b = 0x06#8 ∨ b = 0x07#8 ∨ (0x0A ≤ b.toNat ∧ b.toNat ≤ 0x0E) ∨
    (0x16 ≤ b.toNat ∧ b.toNat ≤ 0x1F) ∨ (0x26 ≤ b.toNat ∧ b.toNat ≤ 0x2F) ∨ 0x31 ≤ b.toNat

theorem not_inCommandGap_of_mem_commandBytes : ∀ b ∈ commandBytes, ¬ InCommandGap b := by decide

theorem decode_of_inCommandGap (h : InCommandGap b) : decode b = none :=
  decode_eq_none_of_not_mem fun hb => not_inCommandGap_of_mem_commandBytes b hb h

theorem runCommand_of_decode_none (h : decode b = none) (s : State) :
    runCommand b s = .next (s.fail .illegalCommand) := by
  rw [runCommand, h, illegalCommand]

theorem runCommand_of_decode {i : Instr} (h : decode b = some i) (s : State) :
    runCommand b s = exec i s := by
  rw [runCommand, h]

/-- R148: an illegal byte fails with `IllegalCommand`, whether it has no row in the command map or its row
is that of the absent address unit. -/
theorem runCommand_of_illegal
    (h : InCommandGap b ∨ b = 0x30#8 ∧ s.params.hasAddrUnit = false) :
    runCommand b s = .next (s.fail .illegalCommand) := by
  rcases h with hgap | ⟨rfl, hunit⟩
  · exact runCommand_of_decode_none (decode_of_inCommandGap hgap) s
  · exact (runCommand_of_decode Laws.EncodingRow.addrNorm.1 s).trans (exec_addrNorm_of_no_unit hunit)

/-! ### `NOP` -/

/-- `STATUS` is already `OK` at reset (R40). -/
theorem State.reset_commit : State.reset.commit = State.reset := rfl

end Sys2Proof.Machine

namespace Sys2Proof

open Sys2Proof.Machine Sys2Proof.Laws.EncodingRow

/-- Settles O6: the step is the host's write to `CMD`, which stores the byte and then performs a command
that only fails. -/
theorem illegalCommandByteOnlyReports : Obligations.IllegalCommandByteOnlyReports := by
  intro s w rest b hbusy hp hw haddr hdata hillegal
  have hd : decodeBus w = some (.write 0x000#10 b) := haddr ▸ hdata ▸ decodeBus_of_write hw
  have hillegal' : InCommandGap b ∨ b = 0x30#8 ∧ s.params.hasAddrUnit = false := by
    simpa only [InCommandGap, or_assoc] using hillegal
  calc step s
    _ = runCommand b { s with pending := rest, cmd := b } := by
      rw [step_of_write hp hd hbusy, busWrite_cmd]
    _ = .next { s with pending := rest, cmd := b, status := 0x1F#8 } :=
      runCommand_of_illegal hillegal'

/-- Settles O27: the command is `commit` with no writes, and at reset `STATUS` already holds `OK`. -/
theorem nopOnlyReportsSuccess : Obligations.NopOnlyReportsSuccess :=
  ⟨nop.1, exec_nop, (exec_nop State.reset).trans (congrArg _ State.reset_commit)⟩

end Sys2Proof
end

section
/-! The failure model (R154): the ways a command can end, and what it has written in each. -/

namespace Sys2Proof.Machine

variable {i : Instr} {s : State}

/-! ### Which commands reach a checksum step -/

/-- A command has one row among the decoders. -/
theorem eq_of_mem_decoders :
    ∀ x ∈ decoders, ∀ y ∈ decoders, x.1 = y.1 → x = y := by decide

theorem crcVerify_not_mem_decoders : ∀ x ∈ decoders, x.1 ≠ .crcVerify := by decide

theorem reachesChecksum_crcVerify_iff :
    Instr.reachesChecksum .crcVerify s ↔ 2 ≤ s.flen.toNat ∧ s.flen.toNat ≤ 152 := by
  refine ⟨?_, fun h => .inl ⟨rfl, h⟩⟩
  rintro (⟨-, h⟩ | ⟨minLen, kind, hd, -⟩)
  · exact h
  · exact absurd rfl (crcVerify_not_mem_decoders _ hd)

/-- A decoder reaches its checksum step past the length and header checks (steps 1 to 3 of R152). -/
theorem reachesChecksum_iff_of_mem_decoders {minLen : Nat} {kind : Byte}
    (hd : (i, minLen, kind) ∈ decoders) :
    i.reachesChecksum s ↔ minLen ≤ s.flen.toNat ∧ s.flen.toNat ≤ 152 ∧
      s.fbufBytes 0 4 = [0x48#8, 0x58#8, 0x30#8, 0x43#8] := by
  refine ⟨?_, fun h => .inr ⟨minLen, kind, hd, h⟩⟩
  rintro (⟨rfl, -⟩ | ⟨m, k, hd', h⟩)
  · exact absurd rfl (crcVerify_not_mem_decoders _ hd)
  · cases eq_of_mem_decoders _ hd _ hd' rfl
    exact h

theorem not_reachesChecksum (hi : i ∉ Instr.crcVerify :: decoders.map Prod.fst) (s : State) :
    ¬ i.reachesChecksum s := by
  rintro (⟨rfl, -⟩ | ⟨minLen, kind, hd, -⟩)
  · exact hi List.mem_cons_self
  · exact hi (List.mem_cons_of_mem _ (List.mem_map_of_mem hd))

/-! ### How a command ends -/

/-- The ways command `i` can end from `s` (R9, R154): it completes with `OK`, or it fails before its
checksum step, or it fails at that step or past it. -/
inductive CommandEnds (i : Instr) (s : State) : State → Prop where
  | completed {t : State} (ok : t.status = 0x00#8) : CommandEnds i s t
  | failedBefore (c : Status) (before : ¬ i.reachesChecksum s) : CommandEnds i s (s.fail c)
  | failedPast (c : Status) (past : i.reachesChecksum s) : CommandEnds i s (s.captured.fail c)

theorem finishFrame_ends (body : List Byte) : CommandEnds i s (finishFrame body s) := .completed rfl

theorem encodePayloadFrame_ends (hn : ¬ i.reachesChecksum s) (sh : Shape) :
    CommandEnds i s (encodePayloadFrame sh s) := by
  rcases encodePayloadFrame_cases sh s with ⟨c, -, e⟩ | ⟨pb, -, -, e⟩ <;> rw [e]
  · exact .failedBefore c hn
  · exact finishFrame_ends _

/-- Whatever its own part does, a decoder's failures leave no other trace than those of the prologue. -/
theorem decodeFrame_ends {sh : Shape} (hd : (i, sh.minLen, sh.kind) ∈ decoders)
    (rest : State → Except Status State) (s : State) : CommandEnds i s (decodeFrame sh rest s) := by
  rcases decodeFrame_cases sh rest s with
    ⟨c, -, hn, e⟩ | ⟨c, -, hl, e⟩ | ⟨c, ⟨lo, hi, ⟨hm, -⟩, -⟩, -, e⟩ | ⟨u, -, -, e⟩ <;> rw [e]
  · exact .failedBefore c (mt (reachesChecksum_iff_of_mem_decoders hd).1 hn)
  · exact .failedPast c ((reachesChecksum_iff_of_mem_decoders hd).2 hl)
  · exact .failedPast c ((reachesChecksum_iff_of_mem_decoders hd).2 ⟨lo, hi, hm⟩)
  · exact .completed rfl

theorem exec_crcVerify_ends (s : State) :
    ∃ t, exec .crcVerify s = .next t ∧ CommandEnds .crcVerify s t := by
  rcases exec_crcVerify_cases s with ⟨hgt, e⟩ | ⟨hlt, e⟩ | ⟨hlen, ⟨-, e⟩ | ⟨-, e⟩⟩
  · exact ⟨_, e, .failedBefore _ (mt reachesChecksum_crcVerify_iff.1 (by omega))⟩
  · exact ⟨_, e, .failedBefore _ (mt reachesChecksum_crcVerify_iff.1 (by omega))⟩
  · exact ⟨_, e, .failedPast _ (reachesChecksum_crcVerify_iff.2 hlen)⟩
  · exact ⟨_, e, .completed rfl⟩

theorem exec_ends (i : Instr) (s : State) : ∃ t, exec i s = .next t ∧ CommandEnds i s t := by
  cases i with
  | nop => exact ⟨_, exec_nop s, .completed rfl⟩
  | crcInit => exact ⟨_, exec_crcInit s, .completed rfl⟩
  | crcFeed => exact ⟨_, exec_crcFeed s, .completed rfl⟩
  | encError => exact ⟨_, exec_encError s, finishFrame_ends _⟩
  | encQuery => exact ⟨_, exec_encQuery s, finishFrame_ends _⟩
  | encEpquery => exact ⟨_, exec_encEpquery s, finishFrame_ends _⟩
  | crcCompute =>
    have hn := not_reachesChecksum (i := .crcCompute) (by decide) s
    rcases exec_crcCompute_cases s with ⟨-, e⟩ | ⟨-, e⟩
    · exact ⟨_, e, .failedBefore _ hn⟩
    · exact ⟨_, e, .completed rfl⟩
  | crcAppend =>
    have hn := not_reachesChecksum (i := .crcAppend) (by decide) s
    rcases exec_crcAppend_cases s with ⟨-, e⟩ | ⟨-, -, e⟩ | ⟨-, e⟩
    · exact ⟨_, e, .failedBefore _ hn⟩
    · exact ⟨_, e, .failedBefore _ hn⟩
    · exact ⟨_, e, .completed rfl⟩
  | crcVerify => exact exec_crcVerify_ends s
  | payEncode =>
    have hn := not_reachesChecksum (i := .payEncode) (by decide) s
    rcases exec_payEncode_cases s with ⟨-, e⟩ | ⟨-, ⟨c, -, e⟩ | ⟨pb, -, ⟨-, e⟩ | ⟨-, e⟩⟩⟩
    · exact ⟨_, e, .failedBefore _ hn⟩
    · exact ⟨_, e, .failedBefore _ hn⟩
    · exact ⟨_, e, .failedBefore _ hn⟩
    · exact ⟨_, e, .completed rfl⟩
  | payDecode =>
    have hn := not_reachesChecksum (i := .payDecode) (by decide) s
    rcases exec_payDecode_cases s with ⟨-, e⟩ | ⟨-, ⟨c, -, e⟩ | ⟨w, -, e⟩⟩
    · exact ⟨_, e, .failedBefore _ hn⟩
    · exact ⟨_, e, .failedBefore _ hn⟩
    · exact ⟨_, e, .completed rfl⟩
  | pktKind =>
    have hn := not_reachesChecksum (i := .pktKind) (by decide) s
    rcases exec_pktKind_cases s with ⟨-, e⟩ | ⟨-, e⟩ | ⟨-, ⟨-, e⟩ | ⟨-, e⟩⟩
    · exact ⟨_, e, .failedBefore _ hn⟩
    · exact ⟨_, e, .failedBefore _ hn⟩
    · exact ⟨_, e, .failedBefore _ hn⟩
    · exact ⟨_, e, .completed rfl⟩
  | encInfo =>
    exact ⟨_, exec_encInfo s, encodePayloadFrame_ends (not_reachesChecksum (by decide) s) _⟩
  | encWrite =>
    exact ⟨_, exec_encWrite s, encodePayloadFrame_ends (not_reachesChecksum (by decide) s) _⟩
  | encEpinfo =>
    rcases exec_encEpinfo_cases s with ⟨-, e⟩ | ⟨sb, -, -, -, e⟩
    · exact ⟨_, e, .failedBefore _ (not_reachesChecksum (by decide) s)⟩
    · exact ⟨_, e, finishFrame_ends _⟩
  | decError => exact ⟨_, exec_decError s, decodeFrame_ends (by decide) _ s⟩
  | decInfo => exact ⟨_, exec_decInfo s, decodeFrame_ends (by decide) _ s⟩
  | decQuery => exact ⟨_, exec_decQuery s, decodeFrame_ends (by decide) _ s⟩
  | decWrite => exact ⟨_, exec_decWrite s, decodeFrame_ends (by decide) _ s⟩
  | decEpinfo => exact ⟨_, exec_decEpinfo s, decodeFrame_ends (by decide) _ s⟩
  | decEpquery => exact ⟨_, exec_decEpquery s, decodeFrame_ends (by decide) _ s⟩
  | addrNorm =>
    rcases exec_addrNorm_cases s with ⟨-, e⟩ | ⟨-, ⟨-, e⟩ | ⟨-, e⟩⟩
    · exact ⟨_, e, .failedBefore _ (not_reachesChecksum (by decide) s)⟩
    · exact ⟨_, e, .completed rfl⟩
    · exact ⟨_, e, .completed rfl⟩

end Sys2Proof.Machine

namespace Sys2Proof

open Sys2Proof.Machine

/-- Settles O23: a command that does not complete with `OK` fails before its checksum step, where `fail`
alone acts, or from it on, where `capture` has acted before. -/
theorem failureWritesStatusAndCapturesOnly : Obligations.FailureWritesStatusAndCapturesOnly := by
  intro i s t h hstatus
  obtain ⟨u, e, hends⟩ := exec_ends i s
  obtain rfl : u = t := Host.Outcome.next.inj (e.symm.trans h)
  cases hends with
  | completed ok => exact absurd ok hstatus
  | failedBefore c before => exact ⟨fun past => absurd past before, fun _ => rfl⟩
  | failedPast c past => exact ⟨fun _ => rfl, fun before => absurd past before⟩

end Sys2Proof
end

section
/-! The encodings (spec file 30): command bytes, bus words, and the host assembly's lines. -/

namespace Sys2Proof.Machine

theorem decode_encode (i : Instr) : decode (encode i) = some i := by cases i <;> rfl

/-! ### Bus words -/

/-- The `addr` field of a bus word stands above its 8 data bits (R68). -/
theorem extractLsb'_busWord_addr (b : BitVec 1) (a : Addr) (v : Byte) :
    (b ++ a ++ v).extractLsb' 8 10 = a := by
  rw [BitVec.extractLsb'_append_eq_of_le (Nat.le_refl 8), Nat.sub_self]
  exact BitVec.extractLsb'_append_eq_right

theorem decodeBus_encodeBus (op : BusOp) : decodeBus (encodeBus op) = some op := by
  cases op with
  | read a =>
    rw [decodeBus_of_read (encodeBus_read_w a) BitVec.extractLsb'_append_eq_right]
    exact congrArg (some ∘ BusOp.read) (extractLsb'_busWord_addr _ a _)
  | write a v =>
    rw [decodeBus_of_write (encodeBus_write_w a v)]
    exact congrArg₂ (fun b c => some (BusOp.write b c)) (extractLsb'_busWord_addr _ a v)
      BitVec.extractLsb'_append_eq_right

/-- A bus word is its three fields, `W` the highest (R68). -/
theorem busWord_eq_fields (w : BusWord) :
    BitVec.ofBool (w.getLsbD 18) ++ w.extractLsb' 8 10 ++ w.extractLsb' 0 8 = w := by
  have hw : BitVec.ofBool (w.getLsbD 18) = w.extractLsb' 18 1 := by
    apply BitVec.eq_of_getLsbD_eq
    intro i hi
    obtain rfl : i = 0 := by omega
    simp
  rw [hw, BitVec.extractLsb'_append_extractLsb'_eq_extractLsb' (show 18 = 8 + 10 from rfl),
    BitVec.extractLsb'_append_extractLsb'_eq_extractLsb' (show 8 = 0 + 8 from rfl)]
  exact BitVec.extractLsb'_eq_self

theorem encodeBus_of_decodeBus {w : BusWord} {op : BusOp} (h : decodeBus w = some op) :
    encodeBus op = w := by
  have hfields := busWord_eq_fields w
  rcases decodeBus_cases w with ⟨hw, e⟩ | ⟨hw, hdata, e⟩ | ⟨-, -, e⟩ <;> cases e.symm.trans h
  · rw [hw] at hfields
    exact hfields
  · rw [hw, hdata] at hfields
    exact hfields

theorem step_of_malformed {s : State} {w : BusWord} {rest : List HostEvent}
    (hp : s.pending = .word w :: rest) (hd : decodeBus w = none) :
    step s = .refused .malformedBusWord := by
  simp [step, hostStep, hp, busStep, hd]

/-- A read word with data is no transaction (R42, R68). -/
theorem decodeBus_of_read_with_data {w : BusWord} (hw : w.getLsbD 18 = false)
    (hdata : w.extractLsb' 0 8 ≠ 0x00#8) : decodeBus w = none := by
  rcases decodeBus_cases w with ⟨hw', -⟩ | ⟨-, hdata', -⟩ | ⟨-, -, e⟩
  · exact absurd (hw.symm.trans hw') Bool.false_ne_true
  · exact absurd hdata' hdata
  · exact e

/-! ### Host assembly -/

/-- Inside the window a line's writes are one word per byte, at rising addresses (R80). -/
theorem asmWrites_eq {a : Nat} {bs : List Byte} (h : a + bs.length ≤ 1024) :
    asmWrites a bs =
      some (bs.mapIdx fun k b => encodeBus (.write (BitVec.ofNat 10 (a + k)) b)) := by
  induction bs generalizing a with
  | nil => rfl
  | cons b bs ih =>
    rw [List.length_cons] at h
    have ha : a < 1024 := by omega
    rw [asmWrites, if_pos ha, ih (by omega)]
    simp only [List.mapIdx_cons, Nat.add_zero, Nat.add_assoc, Nat.add_comm 1]

theorem asmReads_eq {a n : Nat} (h : a + n ≤ 1024) :
    asmReads a n =
      some ((List.range n).map fun k => encodeBus (.read (BitVec.ofNat 10 (a + k)))) := by
  induction n generalizing a with
  | zero => rfl
  | succ n ih =>
    have ha : a < 1024 := by omega
    rw [asmReads, if_pos ha, ih (by omega), List.range_succ_eq_map]
    simp only [List.map_cons, List.map_map, Function.comp_def, Nat.add_zero, Nat.succ_eq_add_one,
      Nat.add_assoc, Nat.add_comm 1]

end Sys2Proof.Machine

namespace Sys2Proof

open Sys2Proof.Machine

/-- Settles O2: the command map is read in both directions, and a bus word is its three fields. -/
theorem decodeAndEncodeAgree : Obligations.DecodeAndEncodeAgree :=
  ⟨decode_encode, fun _ _ => encode_of_decode, decodeBus_encodeBus, fun _ _ => encodeBus_of_decodeBus⟩

/-- Settles O3: the decoder's cases are the three forms of a word. -/
theorem busWordFieldsSelectTheTransaction : Obligations.BusWordFieldsSelectTheTransaction :=
  ⟨fun _ => decodeBus_of_write, fun _ => decodeBus_of_read,
    fun _ _ _ hw hdata hp => step_of_malformed hp (decodeBus_of_read_with_data hw hdata)⟩

/-- Settles O4: every line is a run of writes or of reads from its operand's address on. -/
theorem hostAssemblyExpandsAsTabled : Obligations.HostAssemblyExpandsAsTabled := by
  intro a v h x bs i
  refine ⟨fun ha => ⟨asmWrites_eq ha, asmReads_eq ha⟩, rfl, fun ha => ⟨?_, ?_⟩, fun ha => ⟨?_, ?_⟩,
    fun ha => asmWrites_eq ha, rfl⟩
  · exact asmWrites_eq (bs := be16 h) ha
  · exact asmReads_eq (n := 2) ha
  · exact asmWrites_eq (bs := be32 x) ha
  · exact asmReads_eq (n := 4) ha

end Sys2Proof
end

section
/-! The step (spec files 20 and 70): bus words while the block is busy and while it is not. -/

namespace Sys2Proof.Machine

variable {s : State} {w : BusWord} {rest : List HostEvent} {a : Addr} {v : Byte}

theorem step_of_idle (hp : s.pending = []) : step s = .next s := by
  simp [step, hostStep, hp]

theorem step_of_reset (hp : s.pending = .reset :: rest) :
    step s = .next { s with pending := rest }.resetEvent := by
  simp [step, hostStep, hp]

theorem busWrite_of_ne (h : a ≠ 0x000#10) (v : Byte) (s : State) :
    busWrite a v s = .next (s.memWrite a v) := if_neg h

/-! ### While `BUSY` = 1 -/

theorem busAllowed_of_busy (hb : s.busy = true) : busAllowed a s = (a == 0x003#10) := by
  simp [busAllowed, engstatAddr, hb]

/-- R168: the host's duty binds every transaction, whichever of the two it is. -/
theorem step_of_not_allowed {op : BusOp} (hp : s.pending = .word w :: rest)
    (hd : decodeBus w = some op) (ha : op = .read a ∨ op = .write a v) (hbus : busAllowed a s = false) :
    step s = .refused .hostProtocolViolation := by
  have hbus' : busAllowed a { s with pending := rest } = false := hbus
  rcases ha with rfl | rfl <;> simp [step, hostStep, hp, busStep, hd, hbus']

theorem step_of_allowed_read (hp : s.pending = .word w :: rest) (hd : decodeBus w = some (.read a))
    (hbus : busAllowed a s = true) : step s = .next (busRead a { s with pending := rest }) := by
  have hbus' : busAllowed a { s with pending := rest } = true := hbus
  simp [step, hostStep, hp, busStep, hd, hbus']

theorem step_of_allowed_write (hp : s.pending = .word w :: rest)
    (hd : decodeBus w = some (.write a v)) (hbus : busAllowed a s = true) :
    step s = busWrite a v { s with pending := rest } := by
  have hbus' : busAllowed a { s with pending := rest } = true := hbus
  simp [step, hostStep, hp, busStep, hd, hbus']

theorem State.memRead_engstat_of_busy (hb : s.busy = true) : s.memRead 0x003#10 = 0x01#8 := by
  rw [s.memRead_engstat]
  apply BitVec.eq_of_getLsbD_eq
  intro i hi
  rcases Nat.eq_zero_or_pos i with rfl | hpos
  · simpa [State.busy] using hb
  · have hone : (0x01#8).getLsbD i = false := by
      rw [BitVec.getLsbD_one]
      simpa using Nat.ne_of_gt hpos
    rw [BitVec.getLsbD_and, hone, Bool.and_false]

theorem State.memWrite_engstat_ignored (s : State) (v : Byte) : s.memWrite 0x003#10 v = s :=
  State.memWrite_of_readOnly (locate_of_reg (r := .engstat) rfl Nat.zero_lt_one) rfl v

end Sys2Proof.Machine

namespace Sys2Proof

open Sys2Proof.Machine

/-- Settles O5: the delivered word is a host write to `CMD`. -/
theorem stepRunsTheDecodedCommand : Obligations.StepRunsTheDecodedCommand := by
  intro s w rest i hb hp hw haddr hdecode
  have hd : decodeBus w = some (.write 0x000#10 _) := haddr ▸ decodeBus_of_write hw
  rw [step_of_write hp hd hb, busWrite_cmd, runCommand_of_decode hdecode]

/-- Settles O7: the delivered word is a host read, or a host write that runs no command. -/
theorem stepPerformsHostReadsAndWrites : Obligations.StepPerformsHostReadsAndWrites := by
  intro s w rest hb hp
  refine ⟨fun hw hdata => ?_, fun hw haddr => ?_⟩
  · rw [step_of_read hp (decodeBus_of_read hw hdata) hb, busRead, State.memRead_pending]
  · rw [step_of_write hp (decodeBus_of_write hw) hb, busWrite_of_ne haddr]

/-- Settles O8: while the block is busy `busAllowed` compares the address with `ENGSTAT`'s, and `ENGSTAT`
reads its bit and is read-only. -/
theorem accessWhileBusyIsRefused : Obligations.AccessWhileBusyIsRefused := by
  intro s w rest hb hp hd
  have hallowed (h : w.extractLsb' 8 10 = 0x003#10) : busAllowed (w.extractLsb' 8 10) s = true := by
    rw [busAllowed_of_busy hb, h, BEq.rfl]
  refine ⟨fun haddr => ?_, fun haddr hw => ?_, fun haddr hw => ?_⟩
  · have hbus : busAllowed (w.extractLsb' 8 10) s = false := by
      rw [busAllowed_of_busy hb, beq_eq_false_iff_ne]
      exact haddr
    rcases decodeBus_cases w with ⟨-, e⟩ | ⟨-, -, e⟩ | ⟨-, -, e⟩
    · exact step_of_not_allowed hp e (.inr rfl) hbus
    · exact step_of_not_allowed (v := 0) hp e (.inl rfl) hbus
    · exact absurd e hd
  · have hdata : w.extractLsb' 0 8 = 0x00#8 :=
      by_contra fun h => hd (decodeBus_of_read_with_data hw h)
    rw [step_of_allowed_read hp (decodeBus_of_read hw hdata) (hallowed haddr), busRead, haddr,
      State.memRead_pending, State.memRead_engstat_of_busy hb]
  · rw [step_of_allowed_write hp (decodeBus_of_write hw) (hallowed haddr), haddr,
      busWrite_of_ne (by decide), State.memWrite_engstat_ignored]

/-- Settles O9: with nothing pending `hostStep` has nothing to deliver. -/
theorem idleBlockDoesNothing : Obligations.IdleBlockDoesNothing := fun _ => step_of_idle

end Sys2Proof
end

section
/-! The register window (spec file 20): what stands at each address, and a store seen from the others. -/

namespace Sys2Proof.Machine

variable {s : State} {a b : Addr} {v : Byte}

/-! ### The register map, read backwards -/

/-- Below `0x028` an address that R52 does not reserve has a register row (R44). -/
theorem exists_reg_of_lt : ∀ n < 0x028, n ∈ [0x00B, 0x016, 0x017, 0x025] ∨
    ∃ r ∈ Reg.all, r.base ≤ n ∧ n < r.base + r.size := by decide

/-- A register that does not exist is one of the address unit's (R59). -/
theorem Reg.of_not_present {p : Params} {r : Reg} (h : ¬ r.present p = true) :
    p.hasAddrUnit = false ∧ 0x024 ≤ r.base ∧ r.base + r.size ≤ 0x028 := by
  cases r
  case aCtrl | aPort => exact ⟨Bool.not_eq_true _ ▸ h, by decide⟩
  all_goals exact absurd rfl h

/-- Only the addresses of R52 stand at no register and at no buffer byte. -/
theorem reservedAddr_of_locate {p : Params} (h : locate p a.toNat = .reserved) :
    reservedAddr p a.toNat := by
  have hwindow : a.toNat < 1024 := a.isLt
  have hnot {l : Loc} {base : Nat} (lo : base ≤ a.toNat) (hl : l ≠ .reserved)
      (hloc : locate p (base + (a.toNat - base)) = l) : False := by
    rw [Nat.add_sub_cancel' lo, h] at hloc
    exact hl hloc.symm
  have hpdata : ¬(0x080 ≤ a.toNat ∧ a.toNat < 0x100) := fun ⟨lo, hi⟩ =>
    hnot lo (by simp) (locate_of_pdata p (by omega))
  have hfbuf : ¬(0x100 ≤ a.toNat ∧ a.toNat < 0x198) := fun ⟨lo, hi⟩ =>
    hnot lo (by simp) (locate_of_fbuf p (by omega))
  unfold reservedAddr
  by_cases hlt : a.toNat < 0x028
  · rcases exists_reg_of_lt _ hlt with hres | ⟨r, -, lo, hi⟩
    · simp only [List.mem_cons, List.not_mem_nil, or_false] at hres
      omega
    · obtain ⟨hunit, hbase, hend⟩ := Reg.of_not_present (p := p) (r := r) fun hp =>
        hnot lo (by simp) (locate_of_reg hp (by omega))
      simp only [hunit, true_and]
      omega
  · omega

theorem readOnlyAddr_of_reg {r : Reg} {k : Nat} (hr : r.readOnly = true) (hk : k < r.size) :
    readOnlyAddr (r.base + k) := by
  unfold readOnlyAddr
  cases r <;> simp only [Reg.readOnly, Bool.false_eq_true] at hr <;>
    simp only [Reg.size, Reg.base] at hk ⊢ <;> omega

/-- The read-only addresses are the bytes of the four read-only registers (R17, R18, R21, R22). -/
theorem exists_reg_of_readOnlyAddr {n : Nat} (h : readOnlyAddr n) :
    ∃ (r : Reg) (k : Nat), r.readOnly = true ∧ (∀ p, r.present p = true) ∧ k < r.size ∧
      n = r.base + k := by
  unfold readOnlyAddr at h
  obtain rfl | rfl | rfl | rfl | rfl | rfl :
      n = 0x001 ∨ n = 0x003 ∨ n = 0x006 ∨ n = 0x007 ∨ n = 0x008 ∨ n = 0x009 := by omega
  · exact ⟨.status, 0, rfl, fun _ => rfl, by decide, rfl⟩
  · exact ⟨.engstat, 0, rfl, fun _ => rfl, by decide, rfl⟩
  · exact ⟨.crcCalc, 0, rfl, fun _ => rfl, by decide, rfl⟩
  · exact ⟨.crcCalc, 1, rfl, fun _ => rfl, by decide, rfl⟩
  · exact ⟨.crcRecv, 0, rfl, fun _ => rfl, by decide, rfl⟩
  · exact ⟨.crcRecv, 1, rfl, fun _ => rfl, by decide, rfl⟩

/-! ### Reads -/

theorem Addr.toNat_ofNat_of_lt {n : Nat} (h : n < 1024) : (BitVec.ofNat 10 n).toNat = n := by
  rw [BitVec.toNat_ofNat, Nat.mod_eq_of_lt h]

theorem Reg.base_add_lt {r : Reg} {k : Nat} (hk : k < r.size) : r.base + k < 0x028 := by
  cases r <;> simp only [Reg.base, Reg.size] at hk ⊢ <;> omega

theorem State.memRead_of_locate {l : Loc} (h : locate s.params a.toNat = l) :
    s.memRead a = l.read s := by
  rw [State.memRead, h]

/-- The registers of the map that need no address unit (R44, R59). -/
def Reg.alwaysPresent : List Reg :=
  Reg.all.filter (Reg.present { crcInit := 0x0000#16, hasAddrUnit := false })

theorem Reg.present_of_mem_alwaysPresent {r : Reg} (h : r ∈ Reg.alwaysPresent) (p : Params) :
    r.present p = true := by
  have hno := List.of_mem_filter h
  cases r
  case aCtrl | aPort => cases hno
  all_goals rfl

/-- The rows of a register in the map: its bytes from its base address on, the most significant first
(R44, R45). -/
def Reg.rows (s : State) (r : Reg) : List (Nat × Byte) :=
  (r.bytes s).mapIdx fun k b => (r.base + k, b)

theorem Reg.memRead_of_mem_rows {r : Reg} (hp : r.present s.params = true) {x : Nat × Byte}
    (hx : x ∈ r.rows s) : s.memRead (BitVec.ofNat 10 x.1) = x.2 := by
  obtain ⟨k, hk, rfl⟩ := List.mem_mapIdx.1 hx
  have hsize : k < r.size := Reg.length_bytes s r ▸ hk
  have hbase := Reg.base_add_lt hsize
  rw [State.memRead_of_locate (l := .reg r k)]
  · exact List.getD_eq_getElem _ _ hk
  · rw [Addr.toNat_ofNat_of_lt (by omega)]
    exact locate_of_reg hp hsize

theorem State.memRead_pdata (s : State) {i : Nat} (h : i < 128) :
    s.memRead (BitVec.ofNat 10 (0x080 + i)) = s.pdata i := by
  rw [State.memRead_of_locate (l := .pdata i)]
  · rfl
  · rw [Addr.toNat_ofNat_of_lt (by omega)]
    exact locate_of_pdata _ h

theorem State.memRead_fbuf (s : State) {i : Nat} (h : i < 152) :
    s.memRead (BitVec.ofNat 10 (0x100 + i)) = s.fbuf i := by
  rw [State.memRead_of_locate (l := .fbuf i)]
  · rfl
  · rw [Addr.toNat_ofNat_of_lt (by omega)]
    exact locate_of_fbuf _ h

/-- At a buffer address the host reads the memory's byte (R33, R34). -/
theorem State.memRead_of_buffer (s : State) (lo : 0x080 ≤ a.toNat) (hi : a.toNat < 0x198) :
    s.memRead a = s.byteAt a.toNat := by
  by_cases h : a.toNat < 0x100
  · have hread := s.memRead_pdata (i := a.toNat - 0x080) (by omega)
    rw [State.pdata, pdataBase, Nat.add_sub_cancel' lo, BitVec.ofNat_toNat, BitVec.setWidth_eq] at hread
    exact hread
  · have hread := s.memRead_fbuf (i := a.toNat - 0x100) (by omega)
    rw [State.fbuf, fbufBase, Nat.add_sub_cancel' (Nat.le_of_not_lt h), BitVec.ofNat_toNat,
      BitVec.setWidth_eq] at hread
    exact hread

/-! ### A store, read back -/

theorem State.fbuf_writePdata (s : State) {i : Nat} (hi : i < 128) (v : Byte) (j : Nat) :
    (s.writePdata i [v]).fbuf j = s.fbuf j :=
  State.byteAt_congr rfl rfl (Memory.byte?_storeRun_outside _ _ _ _
    (by simp only [List.length_singleton, pdataBase, fbufBase]; omega))

theorem State.pdata_writeFbuf (s : State) (i : Nat) (bs : List Byte) {j : Nat}
    (hj : j < 128) : (s.writeFbuf i bs).pdata j = s.pdata j :=
  State.byteAt_congr rfl rfl (Memory.byte?_storeRun_outside _ _ _ _
    (by simp only [pdataBase, fbufBase]; omega))

theorem Reg.base_add_eq_aCtrl_iff {r : Reg} {k : Nat} (hk : k < r.size) :
    r.base + k = 0x024 ↔ r = .aCtrl := by
  refine ⟨fun h => Reg.base_injective hk Nat.zero_lt_one h, ?_⟩
  rintro rfl
  obtain rfl : k = 0 := Nat.lt_one_iff.1 hk
  rfl

/-- A byte stored at a place is read back there; of `A_CTRL` bit 0 alone (R45, R47). -/
theorem Loc.read_write_same {p : Params} {n : Nat} (hn : ¬ readOnlyAddr n)
    (h : locate p n ≠ .reserved) (s : State) (v : Byte) :
    (locate p n).read ((locate p n).write s v) = if n = 0x024 then v &&& 0x01#8 else v := by
  cases hloc : locate p n with
  | reserved => exact absurd hloc h
  | pdata i =>
    obtain ⟨rfl, -⟩ := locate_pdata hloc
    rw [if_neg (by omega)]
    exact s.pdata_writePdata_inside i 0 [v] Nat.zero_lt_one
  | fbuf i =>
    obtain ⟨rfl, -⟩ := locate_fbuf hloc
    rw [if_neg (by omega)]
    exact s.fbuf_writeFbuf_inside i 0 [v] Nat.zero_lt_one
  | reg r k =>
    obtain ⟨-, rfl, hk⟩ := locate_reg hloc
    have hr : r.readOnly = false := by
      rw [← Bool.not_eq_true]
      exact fun hr => hn (readOnlyAddr_of_reg hr hk)
    have hlen : ((r.bytes s).set k v).length = r.size := by simp
    simp only [Loc.read, Loc.write, Reg.bytes_put hr hlen, Reg.base_add_eq_aCtrl_iff hk]
    split <;> simp [List.getD_eq_getElem?_getD, hk]

/-- Storing one byte of a register leaves its other bytes as they were (R45). -/
theorem Reg.getD_bytes_put_set (s : State) (v : Byte) {r : Reg} {j k : Nat} (hj : j < r.size)
    (hk : k < r.size) (hkj : k ≠ j) :
    (r.bytes (r.put s ((r.bytes s).set k v))).getD j 0 = (r.bytes s).getD j 0 := by
  cases hr : r.readOnly with
  | true => rw [Reg.put_readOnly _ _ hr]
  | false =>
    have hne : r ≠ .aCtrl := by
      rintro rfl
      simp only [Reg.size] at hj hk
      omega
    rw [Reg.bytes_put hr (by simp), if_neg hne]
    simp [List.getD_eq_getElem?_getD, List.getElem?_set_ne hkj]

/-- A byte stored at one address is not seen at another (R45). -/
theorem Loc.read_write_other {p : Params} {m n : Nat} (hmn : m ≠ n) (s : State) (v : Byte) :
    (locate p n).read ((locate p m).write s v) = (locate p n).read s := by
  cases hm : locate p m with
  | reserved => rfl
  | reg r k =>
    cases hn : locate p n with
    | reserved => rfl
    | pdata j => exact Reg.put_pdata s _ r j
    | fbuf j => exact Reg.put_fbuf s _ r j
    | reg q j =>
      obtain ⟨-, rfl, hk⟩ := locate_reg hm
      obtain ⟨-, rfl, hj⟩ := locate_reg hn
      by_cases hqr : q = r
      · subst hqr
        exact Reg.getD_bytes_put_set s v hj hk (by omega)
      · exact congrArg (List.getD · j 0) (Reg.bytes_put_other s _ hqr)
  | pdata i =>
    obtain ⟨rfl, hi⟩ := locate_pdata hm
    cases hn : locate p n with
    | reserved => rfl
    | reg q j => exact congrArg (List.getD · j 0) (Reg.bytes_writePdata s [v] q i)
    | fbuf j => exact s.fbuf_writePdata hi v j
    | pdata j =>
      obtain ⟨rfl, -⟩ := locate_pdata hn
      exact s.pdata_writePdata_outside i j [v] (by rw [List.length_singleton]; omega)
  | fbuf i =>
    obtain ⟨rfl, -⟩ := locate_fbuf hm
    cases hn : locate p n with
    | reserved => rfl
    | reg q j => exact congrArg (List.getD · j 0) (Reg.bytes_writeFbuf s [v] q i)
    | pdata j => exact s.pdata_writeFbuf i [v] (locate_pdata hn).2
    | fbuf j =>
      obtain ⟨rfl, -⟩ := locate_fbuf hn
      exact s.fbuf_writeFbuf_outside i j [v] (by rw [List.length_singleton]; omega)

end Sys2Proof.Machine

namespace Sys2Proof

open Sys2Proof.Machine

/-- Settles O10: the rows of the registers in the map's order are the listed addresses, and every address
that R52 names stands at no place. -/
theorem windowReadsFollowTheRegisterMap : Obligations.WindowReadsFollowTheRegisterMap := by
  intro s
  refine ⟨fun x hx => ?_, fun hunit => ?_, fun i => s.memRead_pdata, fun i => s.memRead_fbuf,
    fun a => State.memRead_of_reservedAddr⟩
  · have hrows : x ∈ Reg.alwaysPresent.flatMap (Reg.rows s) := hx
    obtain ⟨r, hr, hxr⟩ := List.mem_flatMap.1 hrows
    exact Reg.memRead_of_mem_rows (Reg.present_of_mem_alwaysPresent hr s.params) hxr
  · have hread {r : Reg} (hp : r.present s.params = true) {n : Nat} {v : Byte}
        (h : (n, v) ∈ r.rows s) : s.memRead (BitVec.ofNat 10 n) = v := Reg.memRead_of_mem_rows hp h
    exact ⟨hread (r := .aCtrl) hunit (by simp [Reg.rows, Reg.bytes, Reg.base]),
      hread (r := .aPort) hunit (by simp [Reg.rows, Reg.bytes, be16, Reg.base]),
      hread (r := .aPort) hunit (by simp [Reg.rows, Reg.bytes, be16, Reg.base])⟩

/-- Settles O11: a present and writable place reads back what was stored, and two addresses share no
byte. -/
theorem windowWriteChangesItsOwnByteOnly : Obligations.WindowWriteChangesItsOwnByteOnly := by
  intro s a v
  refine ⟨fun hn hres => ?_, fun b hba => ?_, s.memWrite_params a v, s.memWrite_pending a v,
    s.memWrite_returned a v, s.memWrite_epoch a v⟩
  · rw [State.memRead, State.memWrite_params]
    have haddr : a.toNat = 0x024 ↔ a = 0x024#10 := BitVec.toNat_inj (y := 0x024#10)
    rw [← if_congr haddr rfl rfl]
    exact Loc.read_write_same hn (mt reservedAddr_of_locate hres) s v
  · rw [State.memRead, State.memWrite_params]
    exact Loc.read_write_other (fun h => hba (BitVec.eq_of_toNat_eq h.symm)) s v

/-- Settles O13: the six addresses are the bytes of the four read-only registers. -/
theorem readOnlyRegistersIgnoreHostWrites : Obligations.ReadOnlyRegistersIgnoreHostWrites := by
  intro s a v h
  obtain ⟨r, k, hr, hp, hk, ha⟩ := exists_reg_of_readOnlyAddr h
  exact State.memWrite_of_readOnly (ha ▸ locate_of_reg (hp s.params) hk) hr v

/-- Settles O15: the host reads the memory's byte, or the free one where nothing is listed. -/
theorem unwrittenBufferByteReadsAsFreeByte : Obligations.UnwrittenBufferByteReadsAsFreeByte := by
  intro s a lo hi
  rw [s.memRead_of_buffer lo hi]
  exact ⟨fun h => by simp [State.byteAt, h], fun v => State.byteAt_of_mem⟩

end Sys2Proof
end

section
/-! What a command can do, said once for all commands, and what follows from it: the codes each reports
(R151), and the registers and buffer bytes each writes (R16-R36). -/

namespace Sys2Proof.Machine

variable {i : Instr} {sh : Shape} {s t u : State} {c : Status}

/-! ### The shapes' commands -/

/-- The encoder of a shape (R131-R137). -/
def Shape.encoder : Shape → Instr
  | .error => .encError
  | .info => .encInfo
  | .query => .encQuery
  | .write => .encWrite
  | .epInfo => .encEpinfo
  | .epQuery => .encEpquery

/-- The decoder of a shape (R138-R143). -/
def Shape.decoder : Shape → Instr
  | .error => .decError
  | .info => .decInfo
  | .query => .decQuery
  | .write => .decWrite
  | .epInfo => .decEpinfo
  | .epQuery => .decEpquery

/-- The decoder's own part, behind the prologue (R138-R143). -/
def Shape.ownPart : Shape → State → Except Status State
  | .error => decodeErrorRest
  | .info => fun t => decodePayloadRest .info (t.fbuf 10) t
  | .query => decodeEidRest .query
  | .write => fun t => decodePayloadRest .write (t.fbuf 10) t
  | .epInfo => decodePayloadRest .epInfo 0x06#8
  | .epQuery => decodeEidRest .epQuery

theorem exec_decoder (sh : Shape) (s : State) :
    exec sh.decoder s = .next (decodeFrame sh sh.ownPart s) := by
  cases sh <;> rfl

/-! ### Everything a command can do -/

/-- The states that command `i` can leave `s` in: after a failure, and after each command's writes. -/
inductive Leaves : Instr → State → State → Prop where
  | failed {i : Instr} {s : State} (c : Status) (hc : c ∈ i.mayReport s.params) : Leaves i s (s.fail c)
  | failedCaptured {i : Instr} {s : State} (c : Status) (hc : c ∈ i.mayReport s.params)
      (hi : i ∈ Instr.crcVerify :: decoders.map Prod.fst) : Leaves i s (s.captured.fail c)
  | nop {s : State} : Leaves .nop s s.commit
  | crcInit {s : State} : Leaves .crcInit s { s with crc := s.params.crcInit }.commit
  | crcFeed {s : State} : Leaves .crcFeed s { s with crc := crcByte s.crc s.crcIn }.commit
  | crcCompute {s : State} (v : Half) : Leaves .crcCompute s { s with crcCalc := v }.commit
  | crcAppend {s : State} (h : s.flen.toNat ≤ 150) : Leaves .crcAppend s s.appended
  | crcVerify {s : State} : Leaves .crcVerify s s.captured.commit
  | payEncode {s : State} (pb : List Byte) (h : s.flen.toNat + 1 + pb.length ≤ 152) :
      Leaves .payEncode s
        { s.writeFbuf s.flen.toNat (s.pType :: pb) with
          flen := BitVec.ofNat 8 (s.flen.toNat + 1 + pb.length) }.commit
  | payDecode {s : State} (w : PayloadValue) (h : ∀ bs, w = .content bs → bs.length ≤ 128) :
      Leaves .payDecode s (s.perform w).commit
  | pktKind {s : State} (k : Byte) : Leaves .pktKind s { s with fKind := k }.commit
  | encoded {s : State} (sh : Shape) (body : List Byte) (h : body.length ≤ 150) :
      Leaves sh.encoder s (finishFrame body s)
  | decError {s : State} (flags code : Byte) :
      Leaves .decError s
        { s.captured with fKind := 0x00#8, fFlags := flags, fErrcode := code }.commit
  | decEid {s : State} (sh : Shape) (h : sh = .query ∨ sh = .epQuery) (flags : Byte) (eid : Word) :
      Leaves sh.decoder s
        { s.captured with fKind := sh.kind, fFlags := flags, fEid := eid }.commit
  | decPayload {s : State} (sh : Shape) (h : sh = .info ∨ sh = .write ∨ sh = .epInfo)
      (flags dtype tag : Byte) (eid : Word) (w : PayloadValue)
      (hw : ∀ bs, w = .content bs → bs.length ≤ 128)
      (hstring : sh = .epInfo → ∃ bs, w = .content bs) :
      Leaves sh.decoder s
        { s.captured.perform w with
          fKind := sh.kind, fFlags := flags, fEid := eid, fDtype := dtype, pType := tag }.commit
  | addrNorm {s : State} (h : s.params.hasAddrUnit = true) : Leaves .addrNorm s s.commit
  | addrNormPort {s : State} (h : s.params.hasAddrUnit = true) :
      Leaves .addrNorm s
        { s with aPort := Config.defaultPort, aCtrl := s.aCtrl ||| 0x01#8 }.commit

/-! ### The failures of a decoder -/

theorem payloadValue_string_error_cases {bs : List Byte} (h : payloadValue 0x06#8 bs = .error c) :
    c = .byteLengthInvalid ∨ c = .stringNotTerminated := by
  by_cases hl : bs.length = 128
  · by_cases hnul : 0x00#8 ∈ bs
    · rw [payloadValue_of_length_eq (d := .string128) rfl hl] at h
      cases (if_pos hnul).symm.trans h
    · cases (payloadValue_string_error hl hnul).symm.trans h
      exact .inr rfl
  · cases (payloadValue_of_length_ne (d := .string128) rfl hl).symm.trans h
    exact .inl rfl

theorem payloadValue_of_decodePayloadRest_error {tag : Byte} (h : decodePayloadRest sh tag t = .error c) :
    payloadValue tag (t.fbufBytes 11 (t.flen.toNat - 13)) = .error c := by
  rcases decodePayloadRest_cases sh tag t with ⟨d, hd, e⟩ | ⟨w, -, e⟩ <;> cases e.symm.trans h
  exact hd

theorem prologue_failure_mem_mayReport (sh : Shape) (p : Params)
    (h : (c = .frameLengthInvalid ∨ c = .frameTooShort ∨ c = .malformedHeader) ∨
      (c = .checksumMismatch ∨ c = .unknownPacketType ∨ c = .wrongPacketType)) :
    c ∈ sh.decoder.mayReport p := by
  rcases h with (rfl | rfl | rfl) | (rfl | rfl | rfl) <;> cases sh <;>
    simp [Shape.decoder, Instr.mayReport]

theorem ownPart_failure_mem_mayReport (p : Params) (h : sh.ownPart t = .error c) :
    c ∈ sh.decoder.mayReport p := by
  cases sh with
  | error =>
    rcases decodeErrorRest_cases t with ⟨-, e⟩ | ⟨-, e⟩ <;> cases e.symm.trans h
    simp [Shape.decoder, Instr.mayReport]
  | query | epQuery =>
    rcases decodeEidRest_cases _ t with ⟨-, e⟩ | ⟨-, e⟩ <;> cases e.symm.trans h
    simp [Shape.decoder, Instr.mayReport]
  | info | write =>
    rcases payloadValue_error (payloadValue_of_decodePayloadRest_error h) with rfl | rfl | rfl | rfl <;>
      simp [Shape.decoder, Instr.mayReport]
  | epInfo =>
    rcases payloadValue_string_error_cases (payloadValue_of_decodePayloadRest_error h) with
      rfl | rfl <;> simp [Shape.decoder, Instr.mayReport]

/-! ### What each command leaves -/

theorem payloadValue_string_content {bs : List Byte} {w : PayloadValue}
    (h : payloadValue 0x06#8 bs = .ok w) : ∃ cs, w = .content cs := by
  obtain ⟨d, hd, hl⟩ := payloadValue_length h
  obtain rfl : DataType.string128 = d := Option.some.inj hd
  by_cases hnul : 0x00#8 ∈ bs
  · rw [payloadValue_of_length_eq hd hl] at h
    exact ⟨_, (Except.ok.inj ((if_pos hnul).symm.trans h)).symm⟩
  · cases (payloadValue_string_error hl hnul).symm.trans h

theorem decodePayloadRest_leaves (hsh : sh = .info ∨ sh = .write ∨ sh = .epInfo) {tag : Byte}
    (htag : sh = .epInfo → tag = 0x06#8) (h : decodePayloadRest sh tag s.captured = .ok u) :
    Leaves sh.decoder s u.commit := by
  rcases decodePayloadRest_cases sh tag s.captured with ⟨c, -, e⟩ | ⟨w, hw, e⟩ <;> cases e.symm.trans h
  rw [perform_takeEidFields]
  exact .decPayload sh hsh _ _ tag _ w (fun bs hbs => payloadValue_content_le (hbs ▸ hw))
    fun hstring => payloadValue_string_content (htag hstring ▸ hw)

theorem decodeEidRest_leaves (hsh : sh = .query ∨ sh = .epQuery)
    (h : decodeEidRest sh s.captured = .ok u) : Leaves sh.decoder s u.commit := by
  rcases decodeEidRest_cases sh s.captured with ⟨-, e⟩ | ⟨-, e⟩ <;> cases e.symm.trans h
  exact .decEid sh hsh _ _

theorem ownPart_leaves (h : sh.ownPart s.captured = .ok u) : Leaves sh.decoder s u.commit := by
  cases sh with
  | error =>
    rcases decodeErrorRest_cases s.captured with ⟨-, e⟩ | ⟨-, e⟩ <;> cases e.symm.trans h
    exact .decError _ _
  | query => exact decodeEidRest_leaves (.inl rfl) h
  | epQuery => exact decodeEidRest_leaves (.inr rfl) h
  | info => exact decodePayloadRest_leaves (.inl rfl) nofun h
  | write => exact decodePayloadRest_leaves (.inr (.inl rfl)) nofun h
  | epInfo => exact decodePayloadRest_leaves (.inr (.inr rfl)) (fun _ => rfl) h

theorem decodeFrame_leaves (sh : Shape) (s : State) :
    Leaves sh.decoder s (decodeFrame sh sh.ownPart s) := by
  have hi : sh.decoder ∈ Instr.crcVerify :: decoders.map Prod.fst := by cases sh <;> decide
  rcases decodeFrame_cases sh sh.ownPart s with
    ⟨c, hc, -, e⟩ | ⟨c, hc, -, e⟩ | ⟨c, -, hc, e⟩ | ⟨u, -, hu, e⟩ <;> rw [e]
  · exact .failed c (prologue_failure_mem_mayReport sh _ (.inl hc))
  · exact .failedCaptured c (prologue_failure_mem_mayReport sh _ (.inr hc)) hi
  · exact .failedCaptured c (ownPart_failure_mem_mayReport _ hc) hi
  · exact ownPart_leaves hu

theorem exec_decoder_leaves (sh : Shape) (s : State) :
    ∃ t, exec sh.decoder s = .next t ∧ Leaves sh.decoder s t :=
  ⟨_, exec_decoder sh s, decodeFrame_leaves sh s⟩

theorem encodePayloadFrame_leaves (hsh : sh = .info ∨ sh = .write) (s : State) :
    Leaves sh.encoder s (encodePayloadFrame sh s) := by
  rcases encodePayloadFrame_cases sh s with ⟨c, hc, e⟩ | ⟨pb, -, hlen, e⟩ <;> rw [e]
  · refine .failed c ?_
    rcases payloadBytes_error hc with rfl | rfl | rfl <;> rcases hsh with rfl | rfl <;>
      simp [Shape.encoder, Instr.mayReport]
  · exact .encoded sh _ (by simp; omega)

/-- Every command answers a next state, one of those that `Leaves` names. -/
theorem exec_leaves (i : Instr) (s : State) : ∃ t, exec i s = .next t ∧ Leaves i s t := by
  cases i with
  | nop => exact ⟨_, exec_nop s, .nop⟩
  | crcInit => exact ⟨_, exec_crcInit s, .crcInit⟩
  | crcFeed => exact ⟨_, exec_crcFeed s, .crcFeed⟩
  | crcCompute =>
    rcases exec_crcCompute_cases s with ⟨-, e⟩ | ⟨-, e⟩
    · exact ⟨_, e, .failed _ (by simp [Instr.mayReport])⟩
    · exact ⟨_, e, .crcCompute _⟩
  | crcAppend =>
    rcases exec_crcAppend_cases s with ⟨-, e⟩ | ⟨-, -, e⟩ | ⟨h, -⟩
    · exact ⟨_, e, .failed _ (by simp [Instr.mayReport])⟩
    · exact ⟨_, e, .failed _ (by simp [Instr.mayReport])⟩
    · exact ⟨_, exec_crcAppend_ok h, .crcAppend h⟩
  | crcVerify =>
    rcases exec_crcVerify_cases s with ⟨-, e⟩ | ⟨-, e⟩ | ⟨-, ⟨-, e⟩ | ⟨-, e⟩⟩
    · exact ⟨_, e, .failed _ (by simp [Instr.mayReport])⟩
    · exact ⟨_, e, .failed _ (by simp [Instr.mayReport])⟩
    · exact ⟨_, e, .failedCaptured _ (by simp [Instr.mayReport]) (by decide)⟩
    · exact ⟨_, e, .crcVerify⟩
  | payEncode =>
    rcases exec_payEncode_cases s with ⟨-, e⟩ | ⟨-, ⟨c, hc, e⟩ | ⟨pb, -, ⟨-, e⟩ | ⟨h, e⟩⟩⟩
    · exact ⟨_, e, .failed _ (by simp [Instr.mayReport])⟩
    · refine ⟨_, e, .failed _ ?_⟩
      rcases payloadBytes_error hc with rfl | rfl | rfl <;> simp [Instr.mayReport]
    · exact ⟨_, e, .failed _ (by simp [Instr.mayReport])⟩
    · exact ⟨_, e, .payEncode pb h⟩
  | payDecode =>
    rcases exec_payDecode_cases s with ⟨-, e⟩ | ⟨-, ⟨c, hc, e⟩ | ⟨w, hw, e⟩⟩
    · exact ⟨_, e, .failed _ (by simp [Instr.mayReport])⟩
    · refine ⟨_, e, .failed _ ?_⟩
      rcases payloadValue_error hc with rfl | rfl | rfl | rfl <;> simp [Instr.mayReport]
    · exact ⟨_, e, .payDecode w fun bs hbs => payloadValue_content_le (hbs ▸ hw)⟩
  | pktKind =>
    rcases exec_pktKind_cases s with ⟨-, e⟩ | ⟨-, e⟩ | ⟨-, ⟨-, e⟩ | ⟨-, e⟩⟩
    · exact ⟨_, e, .failed _ (by simp [Instr.mayReport])⟩
    · exact ⟨_, e, .failed _ (by simp [Instr.mayReport])⟩
    · exact ⟨_, e, .failed _ (by simp [Instr.mayReport])⟩
    · exact ⟨_, e, .pktKind _⟩
  | encError => exact ⟨_, exec_encError s, .encoded .error _ (by simp)⟩
  | encQuery => exact ⟨_, exec_encQuery s, .encoded .query _ (by simp)⟩
  | encEpquery => exact ⟨_, exec_encEpquery s, .encoded .epQuery _ (by simp)⟩
  | encInfo => exact ⟨_, exec_encInfo s, encodePayloadFrame_leaves (.inl rfl) s⟩
  | encWrite => exact ⟨_, exec_encWrite s, encodePayloadFrame_leaves (.inr rfl) s⟩
  | encEpinfo =>
    rcases exec_encEpinfo_cases s with ⟨-, e⟩ | ⟨sb, -, -, hlen, e⟩
    · exact ⟨_, e, .failed _ (by simp [Instr.mayReport])⟩
    · exact ⟨_, e, .encoded .epInfo _ (by simp [hlen])⟩
  | decError => exact exec_decoder_leaves .error s
  | decInfo => exact exec_decoder_leaves .info s
  | decQuery => exact exec_decoder_leaves .query s
  | decWrite => exact exec_decoder_leaves .write s
  | decEpinfo => exact exec_decoder_leaves .epInfo s
  | decEpquery => exact exec_decoder_leaves .epQuery s
  | addrNorm =>
    rcases exec_addrNorm_cases s with ⟨hunit, e⟩ | ⟨hunit, ⟨-, e⟩ | ⟨-, e⟩⟩
    · exact ⟨_, e, .failed _ (by simp [Instr.mayReport, hunit])⟩
    · exact ⟨_, e, .addrNormPort hunit⟩
    · exact ⟨_, e, .addrNorm hunit⟩

theorem leaves_of_exec (h : exec i s = .next t) : Leaves i s t := by
  obtain ⟨u, e, hu⟩ := exec_leaves i s
  cases e.symm.trans h
  exact hu

/-! ### The code reported -/

theorem Leaves.status (h : Leaves i s t) : ∃ c, c ∈ i.mayReport s.params ∧ t.status = c.code := by
  cases h with
  | failed c hc | failedCaptured c hc => exact ⟨c, hc, rfl⟩
  | addrNorm hunit | addrNormPort hunit => exact ⟨.ok, by simp [Instr.mayReport, hunit], rfl⟩
  | encoded sh => exact ⟨.ok, by cases sh <;> exact List.mem_cons_self, rfl⟩
  | decEid sh | decPayload sh => exact ⟨.ok, by cases sh <;> exact List.mem_cons_self, rfl⟩
  | _ => exact ⟨.ok, List.mem_cons_self, rfl⟩

/-! ### The buffer bytes written -/

/-- The commands that may write `FBUF` (R34). -/
def fbufWriters : List Instr :=
  [.crcAppend, .payEncode, .encError, .encInfo, .encQuery, .encWrite, .encEpinfo, .encEpquery]

/-- The commands that may write `P_DATA` (R33). -/
def pdataWriters : List Instr := [.payDecode, .decInfo, .decWrite, .decEpinfo]

/-- A command stores at most one run: in `FBUF`, ending where the new `FLEN` says, or in `P_DATA`. -/
theorem Leaves.mem_cases (h : Leaves i s t) :
    t.mem = s.mem ∨
    (i ∈ fbufWriters ∧ ∃ k bs, t.mem = Memory.storeRun s.mem (0x100 + k) bs ∧
      k + bs.length = t.flen.toNat ∧ t.flen.toNat ≤ 152) ∨
    (i ∈ pdataWriters ∧ ∃ bs, t.mem = Memory.storeRun s.mem 0x080 bs ∧ bs.length ≤ 128) := by
  have hcontent {u : State} {w : PayloadValue} (hw : ∀ bs, w = .content bs → bs.length ≤ 128) :
      (u.perform w).mem = u.mem ∨
        ∃ bs, (u.perform w).mem = Memory.storeRun u.mem 0x080 bs ∧ bs.length ≤ 128 := by
    rcases u.perform_mem w with ⟨bs, hbs, e⟩ | ⟨-, e⟩
    · exact .inr ⟨bs, e, hw bs hbs⟩
    · exact .inl e
  cases h with
  | crcAppend hlen =>
    have hflen := State.appended_flen_toNat hlen
    exact .inr (.inl ⟨by decide, _, _, rfl, hflen.symm, by omega⟩)
  | payEncode pb hlen =>
    refine .inr (.inl ⟨by decide, _, _, rfl, ?_⟩)
    simp only [State.commit_flen, BitVec.toNat_ofNat, List.length_cons]
    omega
  | encoded sh body hlen =>
    refine .inr (.inl ⟨by cases sh <;> decide, 0, _, rfl, ?_⟩)
    simp only [finishFrame_eq, BitVec.toNat_ofNat, List.length_append, length_be16]
    omega
  | payDecode w hw => exact (hcontent hw).imp_right fun h => .inr ⟨by decide, h⟩
  | decPayload sh hsh _ _ _ _ w hw =>
    exact (hcontent hw).imp_right fun h => .inr ⟨by rcases hsh with rfl | rfl | rfl <;> decide, h⟩
  | _ => exact .inl rfl

end Sys2Proof.Machine

namespace Sys2Proof

open Sys2Proof.Machine

/-- Settles O22: each way a command can end carries a code of its row. -/
theorem everyCommandReportsACodeOfItsRow : Obligations.EveryCommandReportsACodeOfItsRow := by
  intro i s
  obtain ⟨t, e, h⟩ := exec_leaves i s
  obtain ⟨c, hc, hstatus⟩ := h.status
  exact ⟨t, c, e, hc, hstatus⟩

/-- Settles O26: a command stores one run at most, and it ends below `P_DATA`'s or the frame's end. -/
theorem buffersAreWrittenByTheirCommandsOnly : Obligations.BuffersAreWrittenByTheirCommandsOnly := by
  intro i s t h
  rcases (leaves_of_exec h).mem_cases with
    e | ⟨hi, k, bs, e, hend, hflen⟩ | ⟨hi, bs, e, hlen⟩ <;> rw [e]
  · exact ⟨fun _ _ _ => rfl, fun _ _ _ => rfl, fun _ _ => rfl, fun _ _ => rfl⟩
  · exact ⟨fun hn => absurd hi hn,
      fun _ a ha => Memory.byte?_storeRun_outside _ _ _ _ (by omega),
      fun a ha => Memory.byte?_storeRun_outside _ _ _ _ (by omega),
      fun a ha => Memory.byte?_storeRun_outside _ _ _ _ (by omega)⟩
  · exact ⟨fun _ a ha => Memory.byte?_storeRun_outside _ _ _ _ (by omega),
      fun hn => absurd hi hn,
      fun a ha => Memory.byte?_storeRun_outside _ _ _ _ (by omega),
      fun a ha => Memory.byte?_storeRun_outside _ _ _ _ (by omega)⟩

/-- Settles O25: `CMD` and its like are kept by every command, and of the states that `Leaves` names each
differs in its own command's registers alone. -/
theorem registersAreWrittenByTheirCommandsOnly : Obligations.RegistersAreWrittenByTheirCommandsOnly := by
  intro i s t h
  have hkeep := exec_notByCommand h
  simp only [State.notByCommand, Prod.mk.injEq] at hkeep
  refine ⟨hkeep, ?_⟩
  cases leaves_of_exec h with
  | failedCaptured c hc hi =>
    simp only [decoders, List.map_cons, List.map_nil, List.mem_cons, List.not_mem_nil, or_false] at hi
    rcases hi with rfl | rfl | rfl | rfl | rfl | rfl | rfl <;> simp [← capture_eq_captured]
  | crcAppend => simp [State.appended]
  | encoded sh => cases sh <;> simp [Shape.encoder, finishFrame_eq]
  | decEid sh hsh => rcases hsh with rfl | rfl <;> simp [Shape.decoder, ← capture_eq_captured]
  | decPayload sh hsh _ _ _ _ w _ hstring =>
    rcases hsh with rfl | rfl | rfl
    · simp [Shape.decoder, ← capture_eq_captured]
    · simp [Shape.decoder, ← capture_eq_captured]
    · obtain ⟨bs, rfl⟩ := hstring rfl
      simp [Shape.decoder, State.perform, ← capture_eq_captured]
  | _ => simp [← capture_eq_captured]

end Sys2Proof
end

section
/-! What no command reads (R37, R38): `CMD`, `STATUS` and the host's side of the bus. -/

namespace Sys2Proof.Machine

/-- The host's side of the bus and the command byte, as any command keeps them. -/
structure HostSide where
  /-- `CMD`, R16. -/
  cmd : Byte
  /-- What is still to be delivered (log entry 3). -/
  pending : List HostEvent
  /-- What the host's reads have returned (log entry 3). -/
  returned : List Byte

/-- The state with another host's side. -/
def State.withHost (s : State) (h : HostSide) : State :=
  { s with cmd := h.cmd, pending := h.pending, returned := h.returned }

/-- The state with another host's side and another `STATUS` from an earlier command. -/
def State.disturbed (s : State) (h : HostSide) (x : Byte) : State :=
  { s.withHost h with status := x }

variable (h : HostSide) (x : Byte) {sh : Shape} {rest : State → Except Status State}

theorem payloadBytes_disturbed (s : State) :
    payloadBytes (s.disturbed h x).pType (s.disturbed h x) = payloadBytes s.pType s := rfl

theorem payloadValue_disturbed (s : State) :
    payloadValue (s.disturbed h x).pType
        ((s.disturbed h x).fbufBytes 0 (s.disturbed h x).flen.toNat) =
      payloadValue s.pType (s.fbufBytes 0 s.flen.toNat) := rfl

theorem finishFrame_disturbed (body : List Byte) (s : State) :
    finishFrame body (s.disturbed h x) = (finishFrame body s).withHost h := rfl

theorem encodePayloadFrame_disturbed (sh : Shape) (s : State) :
    encodePayloadFrame sh (s.disturbed h x) = (encodePayloadFrame sh s).withHost h := by
  cases hp : payloadBytes s.pType s with
  | error c =>
    rw [encodePayloadFrame_of_error hp, encodePayloadFrame_of_error (s := s.disturbed h x) hp]
    rfl
  | ok pb =>
    rw [encodePayloadFrame_of_ok hp, encodePayloadFrame_of_ok (s := s.disturbed h x) hp]
    exact finishFrame_disturbed h x (eidBody sh s ++ [s.pType] ++ pb) s

/-- What the prologue answers for the disturbed state, by what it answers for the state. -/
def disturbedPrologue : Except State State → Except State State
  | .error t => .error (t.withHost h)
  | .ok t => .ok (t.disturbed h x)

theorem decodePrologue_disturbed (sh : Shape) (s : State) :
    decodePrologue sh (s.disturbed h x) = disturbedPrologue h x (decodePrologue sh s) := by
  simp only [decodePrologue, apply_ite (disturbedPrologue h x)]
  rfl

theorem decodeFrame_disturbed
    (hrest : ∀ t, rest (t.disturbed h x) = (rest t).map (·.disturbed h x)) (sh : Shape) (s : State) :
    decodeFrame sh rest (s.disturbed h x) = (decodeFrame sh rest s).withHost h := by
  rw [decodeFrame, decodeFrame, decodePrologue_disturbed]
  cases decodePrologue sh s with
  | error t => rfl
  | ok t =>
    simp only [disturbedPrologue, hrest]
    cases rest t <;> rfl

theorem perform_disturbed_commit (s : State) (w : PayloadValue) :
    ((s.disturbed h x).perform w).commit = (s.perform w).commit.withHost h := by
  cases w <;> rfl

theorem decodePayloadRest_disturbed (sh : Shape) (tag : Byte) (t : State) :
    decodePayloadRest sh tag (t.disturbed h x) =
      (decodePayloadRest sh tag t).map (·.disturbed h x) := by
  cases hv : payloadValue tag (t.fbufBytes 11 (t.flen.toNat - 13)) with
  | error c =>
    rw [decodePayloadRest_of_error hv, decodePayloadRest_of_error (s := t.disturbed h x) hv]
    rfl
  | ok w =>
    rw [decodePayloadRest_of_ok hv, decodePayloadRest_of_ok (s := t.disturbed h x) hv]
    cases w <;> rfl

theorem ownPart_disturbed (sh : Shape) (t : State) :
    sh.ownPart (t.disturbed h x) = (sh.ownPart t).map (·.disturbed h x) := by
  cases sh with
  | error =>
    simp only [Shape.ownPart, decodeErrorRest, apply_ite (Except.map (State.disturbed · h x))]
    rfl
  | query | epQuery =>
    simp only [Shape.ownPart, decodeEidRest, apply_ite (Except.map (State.disturbed · h x))]
    rfl
  | info | write | epInfo => exact decodePayloadRest_disturbed h x _ _ t

theorem exec_decoder_disturbed (sh : Shape) (s : State) :
    ∃ t, exec sh.decoder s = .next t ∧ exec sh.decoder (s.disturbed h x) = .next (t.withHost h) :=
  ⟨_, exec_decoder sh s,
    (exec_decoder sh _).trans (congrArg _ (decodeFrame_disturbed h x (ownPart_disturbed h x sh) sh s))⟩

/-- Every command does the same to the disturbed state, which keeps its host's side: the checks look at
`FLEN`, the buffers, `A_CTRL` and the parameters alone. -/
theorem exec_disturbed (i : Instr) (s : State) :
    ∃ t, exec i s = .next t ∧ exec i (s.disturbed h x) = .next (t.withHost h) := by
  cases i with
  | nop | crcInit | crcFeed => exact ⟨_, rfl, rfl⟩
  | crcCompute | crcAppend | crcVerify | pktKind | addrNorm =>
    refine ⟨_, rfl, ?_⟩
    simp only [apply_ite (State.withHost · h)]
    rfl
  | payEncode =>
    refine ⟨_, rfl, ?_⟩
    simp only [exec, execPayEncode, payloadBytes_disturbed]
    cases payloadBytes s.pType s <;> simp only [apply_ite (State.withHost · h)] <;> rfl
  | payDecode =>
    refine ⟨_, rfl, ?_⟩
    simp only [exec, execPayDecode, payloadValue_disturbed]
    cases payloadValue s.pType (s.fbufBytes 0 s.flen.toNat) <;>
      simp only [apply_ite (State.withHost · h), perform_disturbed_commit] <;> rfl
  | encError | encQuery | encEpquery => exact ⟨_, rfl, rfl⟩
  | encInfo | encWrite => exact ⟨_, rfl, congrArg _ (encodePayloadFrame_disturbed h x _ s)⟩
  | encEpinfo =>
    cases hp : stringBytes s with
    | error c => exact ⟨_, exec_encEpinfo_of_error hp, exec_encEpinfo_of_error (s := s.disturbed h x) hp⟩
    | ok sb => exact ⟨_, exec_encEpinfo_of_ok hp,
        (exec_encEpinfo_of_ok (s := s.disturbed h x) hp).trans
          (congrArg _ (finishFrame_disturbed h x (eidBody .epInfo s ++ [s.fDtype] ++ sb) s))⟩
  | decError => exact exec_decoder_disturbed h x .error s
  | decInfo => exact exec_decoder_disturbed h x .info s
  | decQuery => exact exec_decoder_disturbed h x .query s
  | decWrite => exact exec_decoder_disturbed h x .write s
  | decEpinfo => exact exec_decoder_disturbed h x .epInfo s
  | decEpquery => exact exec_decoder_disturbed h x .epQuery s

end Sys2Proof.Machine

namespace Sys2Proof

open Sys2Proof.Machine

/-- Settles O24: the disturbed state differs in those four fields alone. -/
theorem commandsReadNeitherStatusNorHostState : Obligations.CommandsReadNeitherStatusNorHostState := by
  intro i s t c x pend ret h
  obtain ⟨u, e, hu⟩ := exec_disturbed ⟨c, pend, ret⟩ x i s
  cases e.symm.trans h
  exact hu

end Sys2Proof
end

section
/-! Reset (R40, R165) and the machine's invariant: reset meets it, every step keeps it, and under
it a host that delivers bus transactions alone is never stopped. -/

namespace Sys2Proof.Machine

variable {i : Instr} {s t : State} {a : Addr} {v : Byte}

/-! ### The reset state -/

/-- R40: a register other than `CRC` holds 0 after reset. -/
theorem Reg.getD_bytes_resetWith {r : Reg} (hr : r ≠ .crc) (p : Params) (k : Nat) :
    (r.bytes (State.resetWith p)).getD k 0 = 0x00#8 := by
  have hzero : r.bytes (State.resetWith p) = List.replicate r.size 0x00#8 := by
    cases r
    case crc => exact absurd rfl hr
    all_goals simp [Reg.bytes, Reg.size, State.resetWith, be16, be32, List.replicate]
  rw [hzero, List.getD_eq_getElem?_getD, List.getElem?_replicate]
  split <;> rfl

theorem State.memRead_resetWith {p : Params} (hlt : a.toNat < 0x080) (h4 : a ≠ 0x004#10)
    (h5 : a ≠ 0x005#10) : (State.resetWith p).memRead a = 0x00#8 := by
  cases hloc : locate p a.toNat with
  | reserved => exact State.memRead_of_locate (s := State.resetWith p) hloc
  | pdata i =>
    have := (locate_pdata hloc).1
    omega
  | fbuf i =>
    have := (locate_fbuf hloc).1
    omega
  | reg r k =>
    rw [State.memRead_of_locate (s := State.resetWith p) hloc]
    obtain ⟨-, ha, hk⟩ := locate_reg hloc
    refine Reg.getD_bytes_resetWith ?_ p k
    rintro rfl
    obtain rfl | rfl : k = 0 ∨ k = 1 := by simp only [Reg.size] at hk; omega
    · exact h4 (BitVec.eq_of_toNat_eq ha)
    · exact h5 (BitVec.eq_of_toNat_eq ha)

theorem State.inv_resetWith (p : Params) : (State.resetWith p).Inv where
  mem := Memory.wf_nil
  status := ⟨.ok, rfl⟩
  engstat := rfl
  aCtrl := .inl rfl
  noUnit _ := ⟨rfl, rfl⟩

/-! ### What keeps the invariant -/

/-- The invariant speaks of six fields. -/
theorem State.Inv.congr (h : s.Inv) (hmem : Memory.wf t.mem) (hstatus : ∃ c : Status, t.status = c.code)
    (hengstat : t.engstat = s.engstat) (hparams : t.params = s.params) (hctrl : t.aCtrl = s.aCtrl)
    (hport : t.aPort = s.aPort) : t.Inv where
  mem := hmem
  status := hstatus
  engstat := hengstat ▸ h.engstat
  aCtrl := hctrl ▸ h.aCtrl
  noUnit := by rw [hparams, hctrl, hport]; exact h.noUnit

theorem Leaves.wf_mem (h : Leaves i s t) (hs : Memory.wf s.mem) : Memory.wf t.mem := by
  rcases h.mem_cases with e | ⟨-, k, bs, e, hend, hflen⟩ | ⟨-, bs, e, hlen⟩ <;> rw [e]
  · exact hs
  · exact Memory.wf_storeRun bs hs (by simp only [pdataBase]; omega)
      (by simp only [fbufBase, Config.fbufSize]; omega)
  · exact Memory.wf_storeRun bs hs (Nat.le_refl _) (by simp only [fbufBase, Config.fbufSize]; omega)

/-- Outside `ADDR_NORM` the address unit's registers are no command's to write (R35, R36). -/
theorem exec_inv_of_ne_addrNorm (h : exec i s = .next t) (hi : i ≠ .addrNorm) (hs : s.Inv) : t.Inv := by
  have hleaves := leaves_of_exec h
  obtain ⟨⟨-, hengstat, -, hparams, -⟩, -, -, -, -, -, -, -, -, -, -, -, hunit⟩ :=
    registersAreWrittenByTheirCommandsOnly i s t h
  obtain ⟨hctrl, hport⟩ := hunit hi
  exact hs.congr (hleaves.wf_mem hs.mem) (hleaves.status.imp fun _ => And.right) hengstat hparams
    hctrl hport

theorem State.Inv.fail (hs : s.Inv) (c : Status) : (s.fail c).Inv :=
  hs.congr hs.mem ⟨c, rfl⟩ rfl rfl rfl rfl

theorem State.Inv.commit (hs : s.Inv) : s.commit.Inv := hs.congr hs.mem ⟨.ok, rfl⟩ rfl rfl rfl rfl

/-- The default port is written only where the unit exists, and `PORT_VALID` is no reserved bit (R146). -/
theorem State.Inv.defaultPort (hs : s.Inv) (hunit : s.params.hasAddrUnit = true) :
    ({ s with aPort := Config.defaultPort, aCtrl := s.aCtrl ||| 0x01#8 } : State).Inv where
  mem := hs.mem
  status := hs.status
  engstat := hs.engstat
  aCtrl := by
    rcases hs.aCtrl with h | h <;> rw [h] <;> exact .inr rfl
  noUnit hno := absurd (hno.symm.trans hunit) Bool.false_ne_true

theorem exec_inv (h : exec i s = .next t) (hs : s.Inv) : t.Inv := by
  by_cases hi : i = .addrNorm
  · subst hi
    rcases exec_addrNorm_cases s with ⟨-, e⟩ | ⟨hunit, ⟨-, e⟩ | ⟨-, e⟩⟩ <;> cases e.symm.trans h
    · exact hs.fail _
    · exact (hs.defaultPort hunit).commit
    · exact hs.commit
  · exact exec_inv_of_ne_addrNorm h hi hs

/-! ### Host accesses -/

theorem and_one_eq_zero_or_one (b : Byte) : b &&& 0x01#8 = 0x00#8 ∨ b &&& 0x01#8 = 0x01#8 := by
  have hmod : (b &&& 0x01#8).toNat = b.toNat % 2 := by
    rw [BitVec.toNat_and]
    exact Nat.and_one_is_mod _
  exact (Nat.mod_two_eq_zero_or_one b.toNat).imp
    (fun h => BitVec.eq_of_toNat_eq (hmod.trans h)) fun h => BitVec.eq_of_toNat_eq (hmod.trans h)

/-- A register's bits reach the invariant in `A_CTRL`, of which bit 0 alone is stored, and in `A_PORT`. -/
theorem State.Inv.put {r : Reg} (hs : s.Inv) (hp : r.present s.params = true) (bs : List Byte) :
    (r.put s bs).Inv := by
  have hunit (h : r = .aCtrl ∨ r = .aPort) : s.params.hasAddrUnit ≠ false := by
    rcases h with rfl | rfl <;> exact ne_false_of_eq_true hp
  by_cases hctrl : r = .aCtrl
  · subst hctrl
    exact { hs with
      aCtrl := and_one_eq_zero_or_one _
      noUnit := fun hno => absurd hno (hunit (.inl rfl)) }
  by_cases hport : r = .aPort
  · subst hport
    exact { hs with noUnit := fun hno => absurd hno (hunit (.inr rfl)) }
  refine hs.congr ?_ ?_ (Reg.put_engstat s bs r) (Reg.put_params s bs r) ?_ ?_
  · rw [Reg.put_mem]; exact hs.mem
  · rw [Reg.put_status]; exact hs.status
  · cases r
    case aCtrl => exact absurd rfl hctrl
    all_goals rfl
  · cases r
    case aPort => exact absurd rfl hport
    all_goals rfl

theorem State.Inv.memWrite (hs : s.Inv) (a : Addr) (v : Byte) : (s.memWrite a v).Inv := by
  rcases s.memWrite_cases a v with ⟨r, k, hloc, e⟩ | ⟨i, hi, -, e⟩ | ⟨i, hi, -, e⟩ | e <;> rw [e]
  · exact hs.put (locate_reg hloc).1 _
  · exact hs.congr (Memory.wf_storeRun [v] hs.mem (by omega)
      (by simp only [pdataBase, fbufBase, Config.fbufSize, List.length_singleton]; omega))
      hs.status rfl rfl rfl rfl
  · exact hs.congr (Memory.wf_storeRun [v] hs.mem (by simp only [pdataBase, fbufBase]; omega)
      (by simp only [fbufBase, Config.fbufSize, List.length_singleton]; omega))
      hs.status rfl rfl rfl rfl
  · exact hs

theorem State.Inv.pending (hs : s.Inv) (rest : List HostEvent) :
    ({ s with pending := rest } : State).Inv := hs.congr hs.mem hs.status rfl rfl rfl rfl

theorem State.inv_resetEvent (s : State) : s.resetEvent.Inv :=
  (State.inv_resetWith s.params).congr Memory.wf_nil ⟨.ok, rfl⟩ rfl rfl rfl rfl

theorem busWrite_inv (h : busWrite a v s = .next t) (hs : s.Inv) : t.Inv := by
  have hcmd : ({ s with cmd := v } : State).Inv := hs.congr hs.mem hs.status rfl rfl rfl rfl
  rcases busWrite_cases a v s with ⟨-, e⟩ | ⟨-, i, -, e⟩ | ⟨-, -, e⟩
  · cases e.symm.trans h
    exact hs.memWrite a v
  · exact exec_inv (e.symm.trans h) hcmd
  · cases e.symm.trans h
    exact hcmd.fail _

theorem step_inv (h : step s = .next t) (hs : s.Inv) : t.Inv := by
  rcases step_cases s with ⟨-, e⟩ | ⟨rest, -, e⟩ | ⟨w, rest, -, -, e⟩ | ⟨w, rest, a, -, -, -, e⟩ |
    ⟨w, rest, a, -, -, -, e⟩ | ⟨w, rest, a, v, -, -, -, e⟩
  · cases e.symm.trans h
    exact hs
  · cases e.symm.trans h
    exact State.inv_resetEvent _
  · cases e.symm.trans h
  · cases e.symm.trans h
  · cases e.symm.trans h
    exact hs.congr hs.mem hs.status rfl rfl rfl rfl
  · exact busWrite_inv (e.symm.trans h) (hs.pending rest)

/-! ### A host that keeps its duties -/

theorem State.busy_of_inv (hs : s.Inv) : s.busy = false := by
  rw [State.busy, hs.engstat]
  rfl

theorem busWrite_next (a : Addr) (v : Byte) (s : State) :
    ∃ t, busWrite a v s = .next t ∧ t.pending = s.pending := by
  rcases busWrite_cases a v s with ⟨-, e⟩ | ⟨-, i, -, e⟩ | ⟨-, -, e⟩
  · exact ⟨_, e, s.memWrite_pending a v⟩
  · obtain ⟨t, et, ht⟩ := exec_next_notByCommand i { s with cmd := v }
    exact ⟨t, e.trans et, congrArg (·.2.2.2.2.1) ht⟩
  · exact ⟨_, e, rfl⟩

/-- While the host keeps its duties a step completes, and delivers what was pending first. -/
theorem step_next_of_inv (hs : s.Inv) (hw : s.hostWordsWellFormed) :
    ∃ t, step s = .next t ∧ t.pending = s.pending.tail := by
  rcases step_cases s with ⟨hp, e⟩ | ⟨rest, hp, e⟩ | ⟨w, rest, hp, hd, -⟩ | ⟨w, rest, a, -, -, ha, -⟩ |
    ⟨w, rest, a, hp, -, -, e⟩ | ⟨w, rest, a, v, hp, -, -, e⟩
  · exact ⟨s, e, by rw [hp]; rfl⟩
  · exact ⟨_, e, by rw [hp]; rfl⟩
  · obtain ⟨op, hop⟩ := decodeBus_isSome (hw w (hp ▸ List.mem_cons_self))
    cases hd.symm.trans hop
  · exact absurd (ha.symm.trans (busAllowed_of_not_busy (State.busy_of_inv hs) a)) Bool.false_ne_true
  · exact ⟨_, e, by rw [hp]; rfl⟩
  · obtain ⟨t, et, ht⟩ := busWrite_next a v { s with pending := rest }
    exact ⟨t, e.trans et, by rw [hp]; exact ht⟩

end Sys2Proof.Machine

namespace Sys2Proof

open Sys2Proof.Machine

/-- Settles O16: but for `CRC` every register of the reset state is 0, byte by byte. -/
theorem resetLeavesTheTabledValues : Obligations.ResetLeavesTheTabledValues :=
  ⟨rfl, fun p => ⟨rfl, State.busy_of_inv (State.inv_resetWith p), fun _ => State.memRead_resetWith,
    fun _ => rfl⟩⟩

/-- Settles O17: the step is `resetEvent`, which keeps the parameters and the model's own lists. -/
theorem resetEventRestoresTheResetState : Obligations.ResetEventRestoresTheResetState :=
  fun _ _ => step_of_reset

/-- Settles O18: `State.reset` is the reset state of the spec's parameters. -/
theorem resetStateMeetsTheInvariant : Obligations.ResetStateMeetsTheInvariant :=
  ⟨State.inv_resetWith Params.spec, State.inv_resetWith⟩

/-- Settles O19: a reset restores the invariant, and a store or a command keeps each of its parts. -/
theorem everyStepKeepsTheInvariant : Obligations.EveryStepKeepsTheInvariant :=
  fun _ _ hs h => step_inv h hs

/-- Settles O20: the two refusals are a malformed word and an access while `BUSY` = 1. -/
theorem honestHostIsNeverStopped : Obligations.HonestHostIsNeverStopped := by
  intro s hs hw
  obtain ⟨t, e, ht⟩ := step_next_of_inv hs hw
  exact ⟨t, e, fun w hmem => hw w (List.mem_of_mem_tail (ht ▸ hmem))⟩

end Sys2Proof
end

section
/-! The checksum's fold (R87), a decode's writes (R105), and what an encoder's frame decodes to (R145). -/

namespace Sys2Proof.Machine

variable {sh : Shape} {s t u : State}

/-! ### The trailer's byte order -/

theorem toNat_ofBe16 (hi lo : Byte) : (ofBe16 hi lo).toNat = hi.toNat * 256 + lo.toNat := by
  have hlo : lo.toNat < 2 ^ 8 := lo.isLt
  rw [ofBe16, BitVec.toNat_append, ← Nat.shiftLeft_add_eq_or_of_lt hlo, Nat.shiftLeft_eq]

theorem checksum_examples :
    checksum 0x0000#16 [0x31#8, 0x32#8, 0x33#8, 0x34#8, 0x35#8, 0x36#8, 0x37#8, 0x38#8, 0x39#8] =
        0x2189#16 ∧
      checksum 0x0000#16 [0x48#8, 0x58#8, 0x30#8, 0x43#8] = 0x7073#16 := by
  simp [checksum, crcByte, crcShifts, crcShift, Config.crcPoly]

/-! ### Decoding a frame just built -/

theorem State.captured_fbuf (t : State) (k : Nat) : t.captured.fbuf k = t.fbuf k := rfl

@[simp] theorem finishFrame_crcCalc (body : List Byte) (s : State) :
    (finishFrame body s).crcCalc = checksum s.params.crcInit body := rfl

@[simp] theorem finishFrame_fFlags (body : List Byte) (s : State) :
    (finishFrame body s).fFlags = s.fFlags := rfl

@[simp] theorem finishFrame_fErrcode (body : List Byte) (s : State) :
    (finishFrame body s).fErrcode = s.fErrcode := rfl

@[simp] theorem finishFrame_fEid (body : List Byte) (s : State) :
    (finishFrame body s).fEid = s.fEid := rfl

/-- A byte of the frame just finished is the body's byte. -/
theorem finishFrame_fbuf_body (body : List Byte) (s : State) {k : Nat} (hk : k < body.length) :
    (finishFrame body s).fbuf k = body[k] := by
  rw [State.fbuf_of_storesRun (finishFrame_fbuf body s) (by simp; omega), List.getElem_append_left hk]

/-- The state after an encoder of a shape with an `EID`: behind its fields the frame holds `bs`. -/
def State.built (s : State) (sh : Shape) (bs : List Byte) : State := finishFrame (eidBody sh s ++ bs) s

variable {bs pb : List Byte} {d : Byte}

theorem State.built_flen (s : State) (sh : Shape) (h : bs.length ≤ 140) :
    (s.built sh bs).flen.toNat = bs.length + 12 := by
  simp only [State.built, finishFrame_eq, BitVec.toNat_ofNat, List.length_append, length_eidBody]
  omega

/-- R145: its own decoder's prologue takes the frame. -/
theorem State.built_passes (s : State) (h : bs.length ≤ 140) (hmin : sh.minLen ≤ bs.length + 12) :
    (s.built sh bs).passesPrologue sh.minLen sh.kind :=
  finishFrame_passes sh _ s (by simp; omega) (by simp; omega) rfl rfl

theorem State.built_captured (s : State) (sh : Shape) (h : bs.length ≤ 140) :
    (s.built sh bs).captured = { s.built sh bs with crcRecv := (s.built sh bs).crcCalc } := by
  rw [State.built, finishFrame_captured _ _ (by simp; omega), finishFrame_crcCalc]

theorem State.built_fFlags (s : State) (sh : Shape) (bs : List Byte) :
    (s.built sh bs).fFlags = s.fFlags := finishFrame_fFlags _ s

theorem State.built_fEid (s : State) (sh : Shape) (bs : List Byte) :
    (s.built sh bs).fEid = s.fEid := finishFrame_fEid _ s

theorem State.built_fbuf_of_lt (s : State) (sh : Shape) (bs : List Byte) {k : Nat} (hk : k < 10) :
    (s.built sh bs).fbuf k = (eidBody sh s)[k] := by
  rw [State.built, finishFrame_fbuf_body _ _ (by simp; omega)]
  exact List.getElem_append_left hk

theorem State.built_flags (s : State) (sh : Shape) (bs : List Byte) :
    (s.built sh bs).fbuf 5 = s.fFlags :=
  s.built_fbuf_of_lt sh bs (by decide)

theorem State.built_eid (s : State) (sh : Shape) (bs : List Byte) :
    ofBe32 ((s.built sh bs).fbuf 6) ((s.built sh bs).fbuf 7) ((s.built sh bs).fbuf 8)
      ((s.built sh bs).fbuf 9) = s.fEid := by
  have hbyte {k : Nat} (hk : k < 10) := s.built_fbuf_of_lt sh bs hk
  rw [hbyte (k := 6) (by decide), hbyte (k := 7) (by decide), hbyte (k := 8) (by decide),
    hbyte (k := 9) (by decide)]
  exact ofBe32_extract s.fEid

/-! ### The fixed shapes -/

/-- The state after `ENC_ERROR` (R131). -/
def State.builtError (s : State) : State := finishFrame (frameHeader .error s ++ [s.fErrcode]) s

theorem exec_encError_builtError (s : State) : exec .encError s = .next s.builtError := rfl

theorem exec_decError_builtError (s : State) :
    exec .decError s.builtError =
      .next { s.builtError with fKind := 0x00#8, crcRecv := s.builtError.crcCalc } := by
  have hp : s.builtError.passesPrologue Shape.error.minLen Shape.error.kind :=
    finishFrame_passes .error _ s (by simp) (by simp [Shape.minLen]) rfl rfl
  have hcaptured : s.builtError.captured = { s.builtError with crcRecv := s.builtError.crcCalc } :=
    finishFrame_captured _ s (by simp)
  have hbyte {k : Nat} (hk : k < 7) :=
    finishFrame_fbuf_body (frameHeader .error s ++ [s.fErrcode]) s hk
  have hflags : s.builtError.fbuf 5 = s.fFlags := hbyte (by decide)
  have hcode : s.builtError.fbuf 6 = s.fErrcode := hbyte (by decide)
  rw [exec_of_rest_ok (exec_decError _) hp (decodeErrorRest_of_eq rfl), hcaptured]
  exact congrArg₂ (fun f e => Host.Outcome.next { s.builtError with
    fKind := 0x00#8, fFlags := f, fErrcode := e, crcRecv := s.builtError.crcCalc }) hflags hcode

/-- What a decoder of a fixed shape with an `EID` leaves of a frame that passes its prologue. -/
theorem exec_decoder_eid (hsh : sh = .query ∨ sh = .epQuery) (hp : t.passesPrologue sh.minLen sh.kind)
    (hlen : t.flen = 12#8) :
    exec sh.decoder t = .next { t.captured with
      fKind := sh.kind, fFlags := t.fbuf 5
      fEid := ofBe32 (t.fbuf 6) (t.fbuf 7) (t.fbuf 8) (t.fbuf 9)
      status := 0x00#8 } := by
  rcases hsh with rfl | rfl <;> exact exec_of_rest_ok (exec_decoder _ t) hp (decodeEidRest_of_eq hlen)

theorem exec_encoder_eid (hsh : sh = .query ∨ sh = .epQuery) (s : State) :
    exec sh.encoder s = .next (s.built sh []) := by
  rw [State.built, List.append_nil]
  rcases hsh with rfl | rfl <;> rfl

theorem exec_decoder_built_eid (hsh : sh = .query ∨ sh = .epQuery) (s : State) :
    exec sh.decoder (s.built sh []) =
      .next { s.built sh [] with fKind := sh.kind, crcRecv := (s.built sh []).crcCalc } := by
  have hp : (s.built sh []).passesPrologue sh.minLen sh.kind := s.built_passes (by simp)
    (by rcases hsh with rfl | rfl <;> simp [Shape.minLen])
  rw [exec_decoder_eid hsh hp rfl, s.built_captured sh (by simp), s.built_flags, s.built_eid,
    ← s.built_fFlags sh [], ← s.built_fEid sh []]
  rfl

/-! ### The shapes with a payload -/

theorem State.built_dtype (s : State) (sh : Shape) : (s.built sh (d :: pb)).fbuf 10 = d := by
  rw [State.built, finishFrame_fbuf_body _ _ (by simp)]
  rfl

theorem State.built_region (s : State) (sh : Shape) (h : pb.length ≤ 128) :
    (s.built sh (d :: pb)).fbufBytes 11 ((s.built sh (d :: pb)).flen.toNat - 13) = pb := by
  have hlen : (s.built sh (d :: pb)).flen.toNat - 13 = pb.length := by
    rw [s.built_flen sh (by simp; omega), List.length_cons]
    omega
  rw [hlen, State.built, State.fbufBytes_of_storesRun (finishFrame_fbuf _ s) (by simp; omega)]
  exact List.take_left' rfl

/-- What a decoder of a shape with a payload leaves of a frame that passes its prologue. -/
theorem exec_decoder_payload {tag : Byte} {v : PayloadValue} (hp : t.passesPrologue sh.minLen sh.kind)
    (hown : sh.ownPart t.captured = decodePayloadRest sh tag t.captured)
    (hv : payloadValue tag (t.fbufBytes 11 (t.flen.toNat - 13)) = .ok v) :
    exec sh.decoder t = .next { t.captured.perform v with
      fKind := sh.kind, fFlags := t.fbuf 5
      fEid := ofBe32 (t.fbuf 6) (t.fbuf 7) (t.fbuf 8) (t.fbuf 9)
      fDtype := t.fbuf 10, pType := tag, status := 0x00#8 } :=
  exec_of_rest_ok (exec_decoder sh t) hp (hown.trans (decodePayloadRest_of_ok hv))

/-- A decoder of a shape with a payload takes back the fields and the payload's value (R145). -/
theorem exec_decoder_built_payload {tag : Byte} {v : PayloadValue}
    (hown : ∀ t, t.fbuf 10 = d → sh.ownPart t = decodePayloadRest sh tag t)
    (hlen : pb.length ≤ 128) (hmin : sh.minLen ≤ pb.length + 13) (hv : payloadValue tag pb = .ok v)
    (hsame : ∀ t : State, SameValue tag s (t.perform v)) :
    ∃ u, exec sh.decoder (s.built sh (d :: pb)) = .next u ∧ u.status = 0x00#8 ∧ u.fKind = sh.kind ∧
      u.fFlags = s.fFlags ∧ u.fEid = s.fEid ∧ u.fDtype = d ∧ u.pType = tag ∧ SameValue tag s u := by
  have hp : (s.built sh (d :: pb)).passesPrologue sh.minLen sh.kind :=
    s.built_passes (by simp; omega) (by simp; omega)
  have hregion := (congrArg (payloadValue tag) (s.built_region sh (d := d) hlen)).trans hv
  have hdtype := (State.captured_fbuf _ 10).trans (s.built_dtype (d := d) (pb := pb) sh)
  have hexec := exec_decoder_payload hp (hown _ hdtype) hregion
  rw [s.built_flags, s.built_eid, s.built_dtype] at hexec
  exact ⟨_, hexec, rfl, rfl, rfl, rfl, rfl, rfl, hsame (s.built sh (d :: pb)).captured⟩

/-- An encoder that reports `OK` has built its frame of the tag and the payload bytes (R132, R135). -/
theorem encodePayloadFrame_eq_ok (hok : (encodePayloadFrame sh s).status = 0x00#8) :
    ∃ pb, payloadBytes s.pType s = .ok pb ∧ encodePayloadFrame sh s = s.built sh (s.pType :: pb) := by
  rcases encodePayloadFrame_cases sh s with ⟨c, hc, e⟩ | ⟨pb, hpb, -, e⟩
  · rw [e] at hok
    obtain rfl := Status.code_eq_zero_iff.1 hok
    rcases payloadBytes_error hc with h | h | h <;> cases h
  · rw [List.append_assoc] at e
    exact ⟨pb, hpb, e⟩

theorem encodePayloadFrame_roundTrip (hmin : sh.minLen = 14)
    (hown : ∀ t, sh.ownPart t = decodePayloadRest sh (t.fbuf 10) t)
    (hok : (encodePayloadFrame sh s).status = 0x00#8) (hnul : s.pType = 0x06#8 → s.contentHasNoNul) :
    ∃ u, exec sh.decoder (encodePayloadFrame sh s) = .next u ∧ u.status = 0x00#8 ∧ u.fKind = sh.kind ∧
      u.fFlags = s.fFlags ∧ u.fEid = s.fEid ∧ u.fDtype = s.pType ∧ u.pType = s.pType ∧
      SameValue s.pType s u := by
  obtain ⟨pb, hpb, e⟩ := encodePayloadFrame_eq_ok hok
  obtain ⟨v, hv, hsame⟩ := payloadBytes_roundTrip hpb hnul
  obtain ⟨var, -, hlen⟩ := payloadBytes_length hpb
  have hpos := var.wireLen_pos
  have hle := var.wireLen_le
  rw [e]
  exact exec_decoder_built_payload (fun t ht => ht ▸ hown t) (by omega) (by omega) hv hsame

theorem exec_encEpinfo_eq_ok (h : exec .encEpinfo s = .next t) (hok : t.status = 0x00#8) :
    ∃ sb, stringBytes s = .ok sb ∧ sb.length = 128 ∧ t = s.built .epInfo (s.fDtype :: sb) := by
  rcases exec_encEpinfo_cases s with ⟨-, e⟩ | ⟨sb, -, hsb, hlen, e⟩
  · cases e.symm.trans h
    cases hok
  · rw [List.append_assoc] at e
    exact ⟨sb, hsb, hlen, (Host.Outcome.next.inj (e.symm.trans h)).symm⟩

end Sys2Proof.Machine

namespace Sys2Proof

open Sys2Proof.Machine

/-- Settles O31: `checksum` is the left fold of the byte step. -/
theorem checksumFoldsTheByteStep : Obligations.ChecksumFoldsTheByteStep :=
  ⟨checksum_nil, checksum_concat,
    fun c => ⟨_, _, rfl, rfl, rfl, toNat_ofBe16 _ _, ofBe16_extract c⟩, checksum_examples⟩

/-- Settles O40: `perform` is one record update per variant, and a content is stored as one run. -/
theorem payloadWritesItsVariantOnly : Obligations.PayloadWritesItsVariantOnly :=
  fun _ => ⟨fun _ => rfl, fun _ _ _ _ _ _ _ => rfl,
    fun _ _ => ⟨_, rfl, Memory.storesRun_storeRun _ _ _⟩⟩

/-- Settles O52: a fixed encoder's frame passes its decoder's prologue, and its fields read back. -/
theorem fixedShapesRoundTrip : Obligations.FixedShapesRoundTrip := by
  refine ⟨fun s t h => ?_, fun s t h => ?_, fun s t h => ?_⟩
  · cases (exec_encError_builtError s).symm.trans h
    exact ⟨exec_decError_builtError s, finishFrame_fFlags _ s, finishFrame_fErrcode _ s⟩
  · cases (exec_encoder_eid (sh := .query) (.inl rfl) s).symm.trans h
    exact ⟨exec_decoder_built_eid (sh := .query) (.inl rfl) s, s.built_fFlags _ _, s.built_fEid _ _⟩
  · cases (exec_encoder_eid (sh := .epQuery) (.inr rfl) s).symm.trans h
    exact ⟨exec_decoder_built_eid (sh := .epQuery) (.inr rfl) s, s.built_fFlags _ _, s.built_fEid _ _⟩

/-- Settles O53: the three shapes build one kind of frame, whose payload region is the encoded value. -/
theorem payloadShapesRoundTrip : Obligations.PayloadShapesRoundTrip := by
  refine ⟨fun e d kind s t hed h hok hnul => ?_, fun s t h hok hnul => ?_⟩
  · obtain ⟨sh, hencode, rfl, rfl, hmin, hown⟩ : ∃ sh : Shape,
        exec e s = .next (encodePayloadFrame sh s) ∧ sh.decoder = d ∧ sh.kind = kind ∧
          sh.minLen = 14 ∧ ∀ t, sh.ownPart t = decodePayloadRest sh (t.fbuf 10) t := by
      rcases hed with ⟨rfl, rfl, rfl⟩ | ⟨rfl, rfl, rfl⟩
      · exact ⟨.info, exec_encInfo s, rfl, rfl, rfl, fun _ => rfl⟩
      · exact ⟨.write, exec_encWrite s, rfl, rfl, rfl, fun _ => rfl⟩
    cases hencode.symm.trans h
    obtain ⟨u, hu, hstatus, hkind, hflags, heid, hdtype, htype, hsame⟩ :=
      encodePayloadFrame_roundTrip hmin hown hok hnul
    exact ⟨u, hu, hstatus, hkind, hflags, heid, htype, hdtype, hsame⟩
  · obtain ⟨sb, hsb, hlen, rfl⟩ := exec_encEpinfo_eq_ok h hok
    obtain ⟨v, hv, hsame⟩ := payloadBytes_roundTrip (t := 0x06#8) hsb fun _ => hnul
    exact exec_decoder_built_payload (sh := .epInfo) (fun _ _ => rfl) hlen.le
      (by simp [Shape.minLen, hlen]) hv hsame

end Sys2Proof
end

section
/-! One flipped bit (R145): no decoder accepts a frame that differs from an accepted one in one byte. -/

namespace Sys2Proof.Machine

variable {sh : Shape} {s : State} {k : Nat} {v : Byte}

/-! ### The frame with one byte replaced -/

theorem State.fbuf_writeFbuf_same (s : State) (k : Nat) (v : Byte) : (s.writeFbuf k [v]).fbuf k = v :=
  s.fbuf_writeFbuf_inside k 0 [v] Nat.zero_lt_one

theorem State.fbuf_writeFbuf_ne (s : State) (v : Byte) {j k : Nat} (h : j ≠ k) :
    (s.writeFbuf k [v]).fbuf j = s.fbuf j :=
  s.fbuf_writeFbuf_outside k j [v] (by rw [List.length_singleton]; omega)

theorem State.fbufBytes_writeFbuf (s : State) (n k : Nat) (v : Byte) :
    (s.writeFbuf k [v]).fbufBytes 0 n = (s.fbufBytes 0 n).set k v := by
  refine List.ext_getElem (by simp) fun j hj _ => ?_
  rw [State.getElem_fbufBytes, List.getElem_set]
  split
  · next hkj => rw [Nat.zero_add, ← hkj, s.fbuf_writeFbuf_same]
  · next hkj => rw [s.fbuf_writeFbuf_ne v (by omega), State.getElem_fbufBytes]

theorem State.getElem?_fbufBytes (s : State) (i : Nat) {n k : Nat} (hk : k < n) :
    (s.fbufBytes i n)[k]? = some (s.fbuf (i + k)) := by
  rw [List.getElem?_eq_getElem (by simpa using hk), State.getElem_fbufBytes]

/-- Replacing a byte of the first `n` changes them. -/
theorem State.fbufBytes_writeFbuf_ne {n : Nat} (hk : k < n) (hv : v ≠ s.fbuf k) :
    (s.writeFbuf k [v]).fbufBytes 0 n ≠ s.fbufBytes 0 n := by
  intro h
  have hbyte := congrArg (·[k]?) h
  simp only [State.getElem?_fbufBytes _ 0 hk, Nat.zero_add, s.fbuf_writeFbuf_same] at hbyte
  exact hv (Option.some.inj hbyte)

/-- Replacing a byte behind the first `n` leaves them as they were. -/
theorem State.fbufBytes_writeFbuf_of_le (s : State) (v : Byte) {n : Nat} (hk : n ≤ k) :
    (s.writeFbuf k [v]).fbufBytes 0 n = s.fbufBytes 0 n :=
  State.fbufBytes_congr fun j hj => s.fbuf_writeFbuf_ne v (by omega)

theorem ofBe16_inj {a b c d : Byte} (h : ofBe16 a b = ofBe16 c d) : a = c ∧ b = d := by
  have hbytes := congrArg be16 h
  rw [be16_ofBe16, be16_ofBe16] at hbytes
  simpa using hbytes

/-- Replacing a byte of the frame changes its checksum or its trailer, not both (R87). -/
theorem State.captured_writeFbuf_ne (hn : 2 ≤ s.flen.toNat) (hk : k < s.flen.toNat)
    (hv : v ≠ s.fbuf k) (h : s.captured.crcCalc = s.captured.crcRecv) :
    (s.writeFbuf k [v]).captured.crcCalc ≠ (s.writeFbuf k [v]).captured.crcRecv := by
  have h' : s.checksumTo (s.flen.toNat - 2) = s.trailer s.flen.toNat := h
  change (s.writeFbuf k [v]).checksumTo (s.flen.toNat - 2) ≠ (s.writeFbuf k [v]).trailer s.flen.toNat
  by_cases hbody : k < s.flen.toNat - 2
  · have htrailer : (s.writeFbuf k [v]).trailer s.flen.toNat = s.trailer s.flen.toNat := by
      rw [State.trailer, s.fbuf_writeFbuf_ne v (by omega), s.fbuf_writeFbuf_ne v (by omega)]
      rfl
    rw [htrailer, ← h', State.checksumTo, s.fbufBytes_writeFbuf]
    exact checksum_set_ne (by simpa using hbody) (by simpa using hv)
  · have hsum : (s.writeFbuf k [v]).checksumTo (s.flen.toNat - 2) = s.checksumTo (s.flen.toNat - 2) :=
      congrArg (checksum _) (s.fbufBytes_writeFbuf_of_le v (by omega))
    rw [hsum, h']
    intro htrailer
    obtain ⟨hhi, hlo⟩ := ofBe16_inj htrailer
    obtain rfl | rfl : k = s.flen.toNat - 2 ∨ k = s.flen.toNat - 1 := by omega
    · exact hv (s.fbuf_writeFbuf_same _ v ▸ hhi.symm)
    · exact hv (s.fbuf_writeFbuf_same _ v ▸ hlo.symm)

/-! ### The decoder on it -/

/-- A decoder that reports `OK` has passed its prologue. -/
theorem passesPrologue_of_status_ok {rest : State → Except Status State}
    (h : (decodeFrame sh rest s).status = 0x00#8) : s.passesPrologue sh.minLen sh.kind := by
  rcases decodeFrame_cases sh rest s with
    ⟨c, hc, -, e⟩ | ⟨c, hc, -, e⟩ | ⟨c, hp, -, -⟩ | ⟨u, hp, -, -⟩
  · rw [e] at h
    obtain rfl := Status.code_eq_zero_iff.1 h
    simp at hc
  · rw [e] at h
    obtain rfl := Status.code_eq_zero_iff.1 h
    simp at hc
  · exact hp
  · exact hp

/-- R130: a byte replaced in the header is looked at before the checksum, which tells any other. -/
theorem decodeFrame_writeFbuf_status (rest : State → Except Status State)
    (hp : s.passesPrologue sh.minLen sh.kind) (hk : k < s.flen.toNat) (hv : v ≠ s.fbuf k) :
    (decodeFrame sh rest (s.writeFbuf k [v])).status = if k < 4 then 0x01#8 else 0x02#8 := by
  obtain ⟨lo, hi, ⟨hmagic, hsum⟩, -⟩ := hp
  have hmin := sh.minLen_ge
  split
  · next hk4 =>
    have hheader : (s.writeFbuf k [v]).fbufBytes 0 4 ≠ magic := fun h =>
      State.fbufBytes_writeFbuf_ne hk4 hv (h.trans hmagic.symm)
    rw [decodeFrame_of_prologue_error
      (decodePrologue_of_bad_header (s := s.writeFbuf k [v]) hi lo hheader)]
    rfl
  · next hk4 =>
    have hheader := (s.fbufBytes_writeFbuf_of_le v (n := 4) (k := k) (by omega)).trans hmagic
    have hne := State.captured_writeFbuf_ne (by omega) hk hv hsum
    rw [decodeFrame_of_prologue_error
      (decodePrologue_of_mismatch (s := s.writeFbuf k [v]) hi lo hheader hne)]
    rfl

theorem xor_bit_ne {j : Nat} (hj : j < 8) (b : Byte) : b ^^^ (1#8 <<< j) ≠ b := by
  have hbit : ∀ j < 8, (1#8 : Byte) <<< j ≠ 0x00#8 := by decide
  exact fun h => hbit j hj ((BitVec.xor_right_inj b).1 (h.trans BitVec.xor_zero.symm))

end Sys2Proof.Machine

namespace Sys2Proof

open Sys2Proof.Machine

/-- Settles O54: a flipped bit is a byte replaced by another. -/
theorem singleBitCorruptionIsDetected : Obligations.SingleBitCorruptionIsDetected := by
  intro i s t k j hi h hok hk hj
  obtain ⟨sh, rfl⟩ : ∃ sh : Shape, sh.decoder = i := by
    simp only [List.mem_cons, List.not_mem_nil, or_false] at hi
    rcases hi with rfl | rfl | rfl | rfl | rfl | rfl
    exacts [⟨.error, rfl⟩, ⟨.info, rfl⟩, ⟨.query, rfl⟩, ⟨.write, rfl⟩, ⟨.epInfo, rfl⟩, ⟨.epQuery, rfl⟩]
  cases (exec_decoder sh s).symm.trans h
  exact ⟨_, exec_decoder sh _,
    decodeFrame_writeFbuf_status _ (passesPrologue_of_status_ok hok) hk (xor_bit_ne hj _)⟩

end Sys2Proof
end
